-- ==== Sys2Proof/Word.lean ====
section
/-! DEFINITION. The machine's words (00_scope.md R8, R9): bytes, 16-bit words, register numbers. All values are unsigned. -/

namespace Sys2Proof

/-- An 8-bit value: a V register, a timer, a RAM byte (R20). -/
abbrev Byte := BitVec 8

/-- A 16-bit value: an opcode, I, PC, a stack entry (R20, R70). -/
abbrev Word := BitVec 16

/-- The number of a register V0..VF, as a 4-bit field X or Y names it (R21, R73). -/
abbrev Reg := Fin 16

end Sys2Proof
end

