-- ==== Sys2Proof/Syntax.lean ====
section
/-! DEFINITION. The 34 instruction forms of 00_scope.md R2 and 30_encoding.md R77, one constructor per row of
spec/opcode_table.json. `x` and `y` are register numbers, `nn` the 8-bit immediate NN, `n` the 4-bit count N, `nnn` the
12-bit address NNN (R72, R73). The types are exactly the fields' widths. -/

namespace Sys2Proof

inductive Instr where
  /-- 00E0 CLS: clear the display (R101). -/
  | cls
  /-- 00EE RET: return from subroutine (R102). -/
  | ret
  /-- 1NNN JP: jump (R103). -/
  | jp (nnn : BitVec 12)
  /-- 2NNN CALL: call subroutine (R104). -/
  | call (nnn : BitVec 12)
  /-- 3XNN SE_IMM: skip if VX = NN (R121). -/
  | seImm (x : Reg) (nn : Byte)
  /-- 4XNN SNE_IMM: skip if VX differs from NN (R122). -/
  | sneImm (x : Reg) (nn : Byte)
  /-- 5XY0 SE_REG: skip if VX = VY (R123). -/
  | seReg (x y : Reg)
  /-- 6XNN LD_IMM: load immediate (R140). -/
  | ldImm (x : Reg) (nn : Byte)
  /-- 7XNN ADD_IMM: add immediate, no flag (R141). -/
  | addImm (x : Reg) (nn : Byte)
  /-- 8XY0 LD_REG: copy register (R142). -/
  | ldReg (x y : Reg)
  /-- 8XY1 OR (R143). -/
  | orReg (x y : Reg)
  /-- 8XY2 AND (R144). -/
  | andReg (x y : Reg)
  /-- 8XY3 XOR (R145). -/
  | xorReg (x y : Reg)
  /-- 8XY4 ADD_REG: add with carry (R146). -/
  | addReg (x y : Reg)
  /-- 8XY5 SUB: VX - VY with no-borrow flag (R147). -/
  | sub (x y : Reg)
  /-- 8XY6 SHR: shift right by one (R148). -/
  | shr (x y : Reg)
  /-- 8XY7 SUBN: VY - VX with no-borrow flag (R149). -/
  | subn (x y : Reg)
  /-- 8XYE SHL: shift left by one (R150). -/
  | shl (x y : Reg)
  /-- 9XY0 SNE_REG: skip if VX differs from VY (R124). -/
  | sneReg (x y : Reg)
  /-- ANNN LD_I: load index (R170). -/
  | ldI (nnn : BitVec 12)
  /-- BNNN JP_V0: jump to NNN + V0 (R105). -/
  | jpV0 (nnn : BitVec 12)
  /-- CXNN RND: random byte masked (R171). -/
  | rnd (x : Reg) (nn : Byte)
  /-- DXYN DRW: draw sprite (R172). -/
  | drw (x y : Reg) (n : BitVec 4)
  /-- EX9E SKP: skip if key VX is down (R125). -/
  | skp (x : Reg)
  /-- EXA1 SKNP: skip if key VX is up (R126). -/
  | sknp (x : Reg)
  /-- FX07 LD_VX_DT: read the delay timer (R200). -/
  | ldVxDt (x : Reg)
  /-- FX0A LD_VX_K: wait for a key (R230). -/
  | ldVxK (x : Reg)
  /-- FX15 LD_DT_VX: set the delay timer (R201). -/
  | ldDtVx (x : Reg)
  /-- FX18 LD_ST_VX: set the sound timer (R202). -/
  | ldStVx (x : Reg)
  /-- FX1E ADD_I_VX: add to index (R203). -/
  | addIVx (x : Reg)
  /-- FX29 LD_F_VX: point I at a glyph (R204). -/
  | ldFVx (x : Reg)
  /-- FX33 LD_B_VX: store BCD (R205). -/
  | ldBVx (x : Reg)
  /-- FX55 LD_MEM_VX: store V0..VX (R206). -/
  | ldMemVx (x : Reg)
  /-- FX65 LD_VX_MEM: load V0..VX (R207). -/
  | ldVxMem (x : Reg)
deriving DecidableEq, Repr

end Sys2Proof
end

