-- ==== Sys2Proof/WellFormed.lean ====
section
/-! DEFINITION. What operand numbers an instruction may carry (30_encoding.md R72, R73, R82). A writer of an instruction
(an assembler line of R82, a table) gives plain numbers; the checks here say which of them fit a field. `Instr`'s own types
admit only numbers that fit, so every `Instr` passes (Laws/Decode.lean proves it); a list of plain numbers need not (log 17). -/

namespace Sys2Proof

/-- The kinds of operand R82's syntax has: Vx and Vy, byte, nibble, addr. -/
inductive OperandKind where
  | reg
  | byte
  | nibble
  | addr
deriving DecidableEq, Repr

/-- The width in bits of the field that holds an operand of this kind (R72). -/
def OperandKind.width : OperandKind → Nat
  | .reg => 4
  | .byte => 8
  | .nibble => 4
  | .addr => 12

/-- A number fits its field: register numbers and nibbles 0..15, bytes 0..255, addresses 0..0xFFF (R73). -/
def operandFits (k : OperandKind) (value : Nat) : Bool :=
  decide (value < 2 ^ k.width)

/-- Every number of an operand list fits its field. -/
def operandsFit (ops : List (OperandKind × Nat)) : Bool :=
  ops.all fun o => operandFits o.1 o.2

/-- The operands of an instruction as numbers, in the order of R82's syntax. -/
def Instr.operands : Instr → List (OperandKind × Nat)
  | .cls => []
  | .ret => []
  | .jp nnn => [(.addr, nnn.toNat)]
  | .call nnn => [(.addr, nnn.toNat)]
  | .seImm x nn => [(.reg, x.val), (.byte, nn.toNat)]
  | .sneImm x nn => [(.reg, x.val), (.byte, nn.toNat)]
  | .seReg x y => [(.reg, x.val), (.reg, y.val)]
  | .ldImm x nn => [(.reg, x.val), (.byte, nn.toNat)]
  | .addImm x nn => [(.reg, x.val), (.byte, nn.toNat)]
  | .ldReg x y => [(.reg, x.val), (.reg, y.val)]
  | .orReg x y => [(.reg, x.val), (.reg, y.val)]
  | .andReg x y => [(.reg, x.val), (.reg, y.val)]
  | .xorReg x y => [(.reg, x.val), (.reg, y.val)]
  | .addReg x y => [(.reg, x.val), (.reg, y.val)]
  | .sub x y => [(.reg, x.val), (.reg, y.val)]
  | .shr x y => [(.reg, x.val), (.reg, y.val)]
  | .subn x y => [(.reg, x.val), (.reg, y.val)]
  | .shl x y => [(.reg, x.val), (.reg, y.val)]
  | .sneReg x y => [(.reg, x.val), (.reg, y.val)]
  | .ldI nnn => [(.addr, nnn.toNat)]
  | .jpV0 nnn => [(.addr, nnn.toNat)]
  | .rnd x nn => [(.reg, x.val), (.byte, nn.toNat)]
  | .drw x y n => [(.reg, x.val), (.reg, y.val), (.nibble, n.toNat)]
  | .skp x => [(.reg, x.val)]
  | .sknp x => [(.reg, x.val)]
  | .ldVxDt x => [(.reg, x.val)]
  | .ldVxK x => [(.reg, x.val)]
  | .ldDtVx x => [(.reg, x.val)]
  | .ldStVx x => [(.reg, x.val)]
  | .addIVx x => [(.reg, x.val)]
  | .ldFVx x => [(.reg, x.val)]
  | .ldBVx x => [(.reg, x.val)]
  | .ldMemVx x => [(.reg, x.val)]
  | .ldVxMem x => [(.reg, x.val)]

/-- An instruction is well formed when its operands fit their fields (R72, R73). No register number is reserved. -/
def Instr.wellFormed (i : Instr) : Bool :=
  operandsFit i.operands

end Sys2Proof
end

