-- ==== Sys2Proof/Decode.lean ====
section
/-! DEFINITION. Decoding (30_encoding.md R70 to R78) and, after it, the encoder written from the same table R77. -/

namespace Sys2Proof

/-! ### Fields of an opcode (R72) -/

/-- The family, the high nibble op[15:12]. -/
def opFamily (op : Word) : BitVec 4 := op.extractLsb' 12 4

/-- X, op[11:8], as a register number. -/
def opX (op : Word) : Reg := (op.extractLsb' 8 4).toFin

/-- Y, op[7:4], as a register number. -/
def opY (op : Word) : Reg := (op.extractLsb' 4 4).toFin

/-- N, op[3:0]. -/
def opN (op : Word) : BitVec 4 := op.extractLsb' 0 4

/-- NN, op[7:0]. -/
def opNN (op : Word) : Byte := op.extractLsb' 0 8

/-- NNN, op[11:0]. -/
def opNNN (op : Word) : BitVec 12 := op.extractLsb' 0 12

/-! ### Decoding (R75, R76) -/

/-- Family 8 is selected by the low nibble (R75). -/
def decodeFamily8 (op : Word) : Option Instr :=
  match (opN op).toNat with
  | 0x0 => some (.ldReg (opX op) (opY op))
  | 0x1 => some (.orReg (opX op) (opY op))
  | 0x2 => some (.andReg (opX op) (opY op))
  | 0x3 => some (.xorReg (opX op) (opY op))
  | 0x4 => some (.addReg (opX op) (opY op))
  | 0x5 => some (.sub (opX op) (opY op))
  | 0x6 => some (.shr (opX op) (opY op))
  | 0x7 => some (.subn (opX op) (opY op))
  | 0xE => some (.shl (opX op) (opY op))
  | _ => none

/-- Family E is selected by the low byte (R75). -/
def decodeFamilyE (op : Word) : Option Instr :=
  match (opNN op).toNat with
  | 0x9E => some (.skp (opX op))
  | 0xA1 => some (.sknp (opX op))
  | _ => none

/-- Family F is selected by the low byte (R75). -/
def decodeFamilyF (op : Word) : Option Instr :=
  match (opNN op).toNat with
  | 0x07 => some (.ldVxDt (opX op))
  | 0x0A => some (.ldVxK (opX op))
  | 0x15 => some (.ldDtVx (opX op))
  | 0x18 => some (.ldStVx (opX op))
  | 0x1E => some (.addIVx (opX op))
  | 0x29 => some (.ldFVx (opX op))
  | 0x33 => some (.ldBVx (opX op))
  | 0x55 => some (.ldMemVx (opX op))
  | 0x65 => some (.ldVxMem (opX op))
  | _ => none

/-- The decoder: total on the 65536 opcodes, `none` is "invalid" (R75). Every fixed digit is checked (R76). -/
def decode (op : Word) : Option Instr :=
  match (opFamily op).toNat with
  | 0x0 => if op = 0x00E0#16 then some .cls else if op = 0x00EE#16 then some .ret else none
  | 0x1 => some (.jp (opNNN op))
  | 0x2 => some (.call (opNNN op))
  | 0x3 => some (.seImm (opX op) (opNN op))
  | 0x4 => some (.sneImm (opX op) (opNN op))
  | 0x5 => if opN op = 0#4 then some (.seReg (opX op) (opY op)) else none
  | 0x6 => some (.ldImm (opX op) (opNN op))
  | 0x7 => some (.addImm (opX op) (opNN op))
  | 0x8 => decodeFamily8 op
  | 0x9 => if opN op = 0#4 then some (.sneReg (opX op) (opY op)) else none
  | 0xA => some (.ldI (opNNN op))
  | 0xB => some (.jpV0 (opNNN op))
  | 0xC => some (.rnd (opX op) (opNN op))
  | 0xD => some (.drw (opX op) (opY op) (opN op))
  | 0xE => decodeFamilyE op
  | 0xF => decodeFamilyF op
  | _ => none

/-- Why a byte string is not an instruction. -/
inductive DecodeReject where
  /-- Fewer than the two bytes every instruction takes (R70). -/
  | truncated
  /-- The opcode matches no row of R77 (R78). -/
  | invalidOpcode (op : Word)
deriving DecidableEq, Repr

/-- The opcode of two bytes, the byte at the lower address first and most significant (R53, R71). -/
def opcodeOf (hi lo : Byte) : Word := hi ++ lo

/-- Decode the first instruction of a byte string and give the bytes after it. Every instruction takes two bytes (R70). -/
def decodeBytes : List Byte → Except DecodeReject (Instr × List Byte)
  | hi :: lo :: rest =>
    match decode (opcodeOf hi lo) with
    | some i => .ok (i, rest)
    | none => .error (.invalidOpcode (opcodeOf hi lo))
  | _ => .error .truncated

/-! ### The encoder (R74, R77) -/

/-- A register number as its 4-bit field. -/
def regField (r : Reg) : BitVec 4 := BitVec.ofFin r

/-- Format F_NNN: `f N N N`. -/
def encodeNNN (f : BitVec 4) (nnn : BitVec 12) : Word := f ++ nnn

/-- Format F_XNN: `f X N N`. -/
def encodeXNN (f : BitVec 4) (x : Reg) (nn : Byte) : Word := f ++ (regField x ++ nn)

/-- Formats F_XY and F_XYN: `f X Y s` and `D X Y N`. -/
def encodeXYN (f : BitVec 4) (x y : Reg) (s : BitVec 4) : Word := f ++ (regField x ++ (regField y ++ s))

/-- The opcode of an instruction (R77). SHR and SHL encode Y as given (R82). -/
def encode : Instr → Word
  | .cls => 0x00E0#16
  | .ret => 0x00EE#16
  | .jp nnn => encodeNNN 0x1#4 nnn
  | .call nnn => encodeNNN 0x2#4 nnn
  | .seImm x nn => encodeXNN 0x3#4 x nn
  | .sneImm x nn => encodeXNN 0x4#4 x nn
  | .seReg x y => encodeXYN 0x5#4 x y 0x0#4
  | .ldImm x nn => encodeXNN 0x6#4 x nn
  | .addImm x nn => encodeXNN 0x7#4 x nn
  | .ldReg x y => encodeXYN 0x8#4 x y 0x0#4
  | .orReg x y => encodeXYN 0x8#4 x y 0x1#4
  | .andReg x y => encodeXYN 0x8#4 x y 0x2#4
  | .xorReg x y => encodeXYN 0x8#4 x y 0x3#4
  | .addReg x y => encodeXYN 0x8#4 x y 0x4#4
  | .sub x y => encodeXYN 0x8#4 x y 0x5#4
  | .shr x y => encodeXYN 0x8#4 x y 0x6#4
  | .subn x y => encodeXYN 0x8#4 x y 0x7#4
  | .shl x y => encodeXYN 0x8#4 x y 0xE#4
  | .sneReg x y => encodeXYN 0x9#4 x y 0x0#4
  | .ldI nnn => encodeNNN 0xA#4 nnn
  | .jpV0 nnn => encodeNNN 0xB#4 nnn
  | .rnd x nn => encodeXNN 0xC#4 x nn
  | .drw x y n => encodeXYN 0xD#4 x y n
  | .skp x => encodeXNN 0xE#4 x 0x9E#8
  | .sknp x => encodeXNN 0xE#4 x 0xA1#8
  | .ldVxDt x => encodeXNN 0xF#4 x 0x07#8
  | .ldVxK x => encodeXNN 0xF#4 x 0x0A#8
  | .ldDtVx x => encodeXNN 0xF#4 x 0x15#8
  | .ldStVx x => encodeXNN 0xF#4 x 0x18#8
  | .addIVx x => encodeXNN 0xF#4 x 0x1E#8
  | .ldFVx x => encodeXNN 0xF#4 x 0x29#8
  | .ldBVx x => encodeXNN 0xF#4 x 0x33#8
  | .ldMemVx x => encodeXNN 0xF#4 x 0x55#8
  | .ldVxMem x => encodeXNN 0xF#4 x 0x65#8

/-- The two bytes of an opcode as RAM holds them, high byte first (R53). -/
def opcodeBytes (op : Word) : List Byte := [op.extractLsb' 8 8, op.extractLsb' 0 8]

/-- The bytes of an instruction as RAM holds them. -/
def encodeBytes (i : Instr) : List Byte := opcodeBytes (encode i)

/-! ### The opcode map (R77), as data -/

/-- A row of the opcode map: `op &&& mask = pattern` selects it. -/
structure OpcodeRow where
  mnemonic : String
  pattern : Word
  mask : Word
deriving DecidableEq, Repr

/-- Rows of families 0 to 7 (R77). -/
def opcodeRowsLow : List OpcodeRow :=
  [⟨"CLS", 0x00E0#16, 0xFFFF#16⟩,
   ⟨"RET", 0x00EE#16, 0xFFFF#16⟩,
   ⟨"JP", 0x1000#16, 0xF000#16⟩,
   ⟨"CALL", 0x2000#16, 0xF000#16⟩,
   ⟨"SE_IMM", 0x3000#16, 0xF000#16⟩,
   ⟨"SNE_IMM", 0x4000#16, 0xF000#16⟩,
   ⟨"SE_REG", 0x5000#16, 0xF00F#16⟩,
   ⟨"LD_IMM", 0x6000#16, 0xF000#16⟩,
   ⟨"ADD_IMM", 0x7000#16, 0xF000#16⟩]

/-- Rows of families 8 to D (R77). -/
def opcodeRowsMid : List OpcodeRow :=
  [⟨"LD_REG", 0x8000#16, 0xF00F#16⟩,
   ⟨"OR", 0x8001#16, 0xF00F#16⟩,
   ⟨"AND", 0x8002#16, 0xF00F#16⟩,
   ⟨"XOR", 0x8003#16, 0xF00F#16⟩,
   ⟨"ADD_REG", 0x8004#16, 0xF00F#16⟩,
   ⟨"SUB", 0x8005#16, 0xF00F#16⟩,
   ⟨"SHR", 0x8006#16, 0xF00F#16⟩,
   ⟨"SUBN", 0x8007#16, 0xF00F#16⟩,
   ⟨"SHL", 0x800E#16, 0xF00F#16⟩,
   ⟨"SNE_REG", 0x9000#16, 0xF00F#16⟩,
   ⟨"LD_I", 0xA000#16, 0xF000#16⟩,
   ⟨"JP_V0", 0xB000#16, 0xF000#16⟩,
   ⟨"RND", 0xC000#16, 0xF000#16⟩,
   ⟨"DRW", 0xD000#16, 0xF000#16⟩]

/-- Rows of families E and F (R77). -/
def opcodeRowsHigh : List OpcodeRow :=
  [⟨"SKP", 0xE09E#16, 0xF0FF#16⟩,
   ⟨"SKNP", 0xE0A1#16, 0xF0FF#16⟩,
   ⟨"LD_VX_DT", 0xF007#16, 0xF0FF#16⟩,
   ⟨"LD_VX_K", 0xF00A#16, 0xF0FF#16⟩,
   ⟨"LD_DT_VX", 0xF015#16, 0xF0FF#16⟩,
   ⟨"LD_ST_VX", 0xF018#16, 0xF0FF#16⟩,
   ⟨"ADD_I_VX", 0xF01E#16, 0xF0FF#16⟩,
   ⟨"LD_F_VX", 0xF029#16, 0xF0FF#16⟩,
   ⟨"LD_B_VX", 0xF033#16, 0xF0FF#16⟩,
   ⟨"LD_MEM_VX", 0xF055#16, 0xF0FF#16⟩,
   ⟨"LD_VX_MEM", 0xF065#16, 0xF0FF#16⟩]

/-- The 34 rows of R77, in the table's order. -/
def opcodeMap : List OpcodeRow := opcodeRowsLow ++ (opcodeRowsMid ++ opcodeRowsHigh)

/-- A row selects an opcode (R77). -/
def OpcodeRow.selects (r : OpcodeRow) (op : Word) : Bool := op &&& r.mask == r.pattern

/-- The mnemonic of an instruction, the `name` column of R77. -/
def Instr.mnemonic : Instr → String
  | .cls => "CLS"
  | .ret => "RET"
  | .jp _ => "JP"
  | .call _ => "CALL"
  | .seImm _ _ => "SE_IMM"
  | .sneImm _ _ => "SNE_IMM"
  | .seReg _ _ => "SE_REG"
  | .ldImm _ _ => "LD_IMM"
  | .addImm _ _ => "ADD_IMM"
  | .ldReg _ _ => "LD_REG"
  | .orReg _ _ => "OR"
  | .andReg _ _ => "AND"
  | .xorReg _ _ => "XOR"
  | .addReg _ _ => "ADD_REG"
  | .sub _ _ => "SUB"
  | .shr _ _ => "SHR"
  | .subn _ _ => "SUBN"
  | .shl _ _ => "SHL"
  | .sneReg _ _ => "SNE_REG"
  | .ldI _ => "LD_I"
  | .jpV0 _ => "JP_V0"
  | .rnd _ _ => "RND"
  | .drw _ _ _ => "DRW"
  | .skp _ => "SKP"
  | .sknp _ => "SKNP"
  | .ldVxDt _ => "LD_VX_DT"
  | .ldVxK _ => "LD_VX_K"
  | .ldDtVx _ => "LD_DT_VX"
  | .ldStVx _ => "LD_ST_VX"
  | .addIVx _ => "ADD_I_VX"
  | .ldFVx _ => "LD_F_VX"
  | .ldBVx _ => "LD_B_VX"
  | .ldMemVx _ => "LD_MEM_VX"
  | .ldVxMem _ => "LD_VX_MEM"

/-! ### The host's reading of a table word -/

/-- The bytes, as RAM holds them, of the one 16-bit word whose low `nbits` bits are `w` and whose other bits are 0. Bit 0 is
the word's least significant bit, so the high byte (bits 15..8) comes first (R53). -/
def tableBytes (nbits w : Nat) : List Byte := opcodeBytes (BitVec.ofNat 16 (w % 2 ^ nbits))

/-- The instruction the decoder reads from the word `w` of a row of `nbits` bits. -/
def decodeTableWord (nbits w : Nat) : Option Instr :=
  match decodeBytes (tableBytes nbits w) with
  | .ok (i, _) => some i
  | .error _ => none

end Sys2Proof
end

