-- ==== Sys2Proof/Machine/Display.lean ====
section
/-! DEFINITION. The display grid `Disp[x][y]` (10_state.md R34) with its helpers (60_exceptions.md R331) and the sprite
compositor (43_index_random_draw.md R172 to R175). -/

namespace Sys2Proof.Machine

/-- 64 columns of 32 pixels, `Disp[x][y]`, true is lit (R34). -/
abbrev Grid := Vector (Vector Bool 32) 64

/-- `clear`: every pixel false (R331, R101). -/
def clearGrid : Grid := Vector.replicate 64 (Vector.replicate 32 false)

/-- `getPixel`: the pixel at (x mod 64, y mod 32) (R331). -/
def getPixel (d : Grid) (x y : Nat) : Bool :=
  (d[x % 64]'(Nat.mod_lt _ (by decide)))[y % 32]'(Nat.mod_lt _ (by decide))

/-- `setPixel`: write the pixel at (x mod 64, y mod 32) (R331). -/
def setPixel (d : Grid) (x y : Nat) (b : Bool) : Grid :=
  d.set (x % 64)
    ((d[x % 64]'(Nat.mod_lt _ (by decide))).set (y % 32) b (Nat.mod_lt _ (by decide)))
    (Nat.mod_lt _ (by decide))

/-- `flipPixel`: toggle the pixel at (x mod 64, y mod 32) (R331). -/
def flipPixel (d : Grid) (x y : Nat) : Grid := setPixel d x y (!getPixel d x y)

/-- The bit of a sprite byte for column c: bit 7 is column 0, the leftmost pixel (R173). -/
def spriteBit (row : Byte) (c : Nat) : Bool := row.getLsbD (7 - c)

/-- A grid being drawn on, with the collision flag so far. -/
abbrev Canvas := Grid × Bool

/-- One pixel of a sprite: a 1 bit toggles the pixel and collides if it was lit; a 0 bit leaves it (R172, R175). -/
def plotBit (bit : Bool) (x y : Nat) (c : Canvas) : Canvas :=
  if bit then (flipPixel c.1 x y, c.2 || getPixel c.1 x y) else c

/-- The first `n` columns of one sprite row at (x0, y), left to right (R172). -/
def drawColumns (row : Byte) (x0 y : Nat) (n : Nat) (c : Canvas) : Canvas :=
  match n with
  | 0 => c
  | k + 1 => plotBit (spriteBit row k) (x0 + k) y (drawColumns row x0 y k c)

/-- The rows of a sprite from (x0, y) down, 8 columns each (R172). The pixel helpers wrap both coordinates (R174). -/
def drawRows (rows : List Byte) (x0 y : Nat) (c : Canvas) : Canvas :=
  match rows with
  | [] => c
  | row :: rest => drawRows rest x0 (y + 1) (drawColumns row x0 y 8 c)

/-- XOR a sprite into a grid at (x0, y0): the new grid and the collision flag (R172). -/
def drawSprite (rows : List Byte) (x0 y0 : Nat) (d : Grid) : Canvas := drawRows rows x0 y0 (d, false)

end Sys2Proof.Machine
end

