-- ==== Sys2Proof/Config.lean ====
section
/-! DEFINITION. What an implementation fixes (00_scope.md R7) and the one free value. The parameters' default values stand in
Machine/Params.lean; the parameters P_CYCLE_PROTOCOL, P_EXPORT_ENCODING, P_STEP_RATE and P_TICK_RATE are read by no rule of the
model (log 9, log 10). -/

namespace Sys2Proof

/-- P_SHIFT_SOURCE (R7, R148, R150; D23): which register 8XY6 and 8XYE shift. -/
inductive ShiftSource where
  | vx
  | vy
deriving DecidableEq, Repr

/-- P_FONT (R7, R33; D16): the 80 glyph bytes at 0x000..0x04F, 16 glyphs of 5 bytes. -/
abbrev Font := Vector Byte 80

/-- The parameters the spec says a model takes as arguments (R7, R33). They are fixed for a machine; `State.params` carries
them and nothing writes them (DESIGN CHOICE, log 3). -/
structure Params where
  /-- P_SHIFT_SOURCE. -/
  shiftSource : ShiftSource
  /-- P_FONT. -/
  font : Font
deriving DecidableEq, Repr

/-- The random byte a CXNN draws when its STEP's input is left open (R40, R335; D21): a FREE VALUE, one for each number of
draws consumed before it, under no law (log 1). -/
opaque Config.freeDraw : Nat → Byte

end Sys2Proof
end

