-- ==== Sys2Proof/Machine/Memory.lean ====
section
/-! DEFINITION. RAM (20_memory.md R50, R51): 4096 bytes, as a list of cells in one canonical form. A byte no cell lists reads
as its reset contents: P_FONT at 0x000..0x04F and 0x00 elsewhere (10_state.md R41; log 6). -/

namespace Sys2Proof.Machine

/-- RAM_SIZE, 4096 bytes at 0x000..0xFFF (R7, R50). -/
def ramSize : Nat := 4096

/-- Memory as cells, addresses strictly rising. -/
abbrev Memory := List Host.Cell

/-- What an address no cell lists reads as: its contents at power-on and after LOAD (R41, R33). -/
def resetByte (font : Font) (a : Nat) : Byte :=
  if h : a < 80 then font[a] else 0#8

/-- The byte at one address. -/
def Memory.read (font : Font) (m : Memory) (a : Nat) : Byte :=
  match m with
  | [] => resetByte font a
  | (k, b) :: rest => if k = a then b else Memory.read font rest a

/-- Drop every cell of an address. -/
def Memory.erase (m : Memory) (a : Nat) : Memory :=
  match m with
  | [] => []
  | (k, c) :: rest => if k = a then Memory.erase rest a else (k, c) :: Memory.erase rest a

/-- Put a cell in its place, replacing the address's old cell. -/
def Memory.insert (m : Memory) (a : Nat) (b : Byte) : Memory :=
  match m with
  | [] => [(a, b)]
  | (k, c) :: rest =>
    if a < k then (a, b) :: (k, c) :: rest
    else if k = a then (a, b) :: rest
    else (k, c) :: Memory.insert rest a b

/-- Write one byte, keeping the canonical form: a byte equal to the address's reset contents is not listed. -/
def Memory.write (font : Font) (m : Memory) (a : Nat) (b : Byte) : Memory :=
  if b = resetByte font a then Memory.erase m a else Memory.insert m a b

/-- Write bytes at `a`, `a + 1`, ... -/
def Memory.writeBytes (font : Font) (m : Memory) (a : Nat) (bytes : List Byte) : Memory :=
  match bytes with
  | [] => m
  | b :: rest => Memory.writeBytes font (Memory.write font m a b) (a + 1) rest

/-- The canonical memory that holds the bytes at `a`, `a + 1`, ... and the reset contents everywhere else. -/
def Memory.ofBytes (font : Font) (a : Nat) (bytes : List Byte) : Memory :=
  match bytes with
  | [] => []
  | b :: rest =>
    if b = resetByte font a then Memory.ofBytes font (a + 1) rest
    else (a, b) :: Memory.ofBytes font (a + 1) rest

/-- The cells stand at addresses from `lo` up to RAM's end, strictly rising, none equal to its reset contents. -/
def Memory.wfFrom (font : Font) (lo : Nat) (m : Memory) : Bool :=
  match m with
  | [] => true
  | (k, b) :: rest =>
    decide (lo ≤ k) && decide (k < ramSize) && decide (b ≠ resetByte font k) && Memory.wfFrom font (k + 1) rest

/-- The canonical form. -/
def Memory.wf (font : Font) (m : Memory) : Bool := Memory.wfFrom font 0 m

end Sys2Proof.Machine
end

