-- ==== Sys2Proof/Machine/Params.lean ====
section
/-! DEFINITION. The default values of the parameters (00_scope.md R7, 10_state.md R33). -/

namespace Sys2Proof.Machine

/-- The default P_FONT: 16 glyphs of 5 bytes (R33). The spec marks the table as general knowledge (PRESUMED, log 4). -/
def standardFont : Font :=
  #v[0xF0#8, 0x90#8, 0x90#8, 0x90#8, 0xF0#8,
     0x20#8, 0x60#8, 0x20#8, 0x20#8, 0x70#8,
     0xF0#8, 0x10#8, 0xF0#8, 0x80#8, 0xF0#8,
     0xF0#8, 0x10#8, 0xF0#8, 0x10#8, 0xF0#8,
     0x90#8, 0x90#8, 0xF0#8, 0x10#8, 0x10#8,
     0xF0#8, 0x80#8, 0xF0#8, 0x10#8, 0xF0#8,
     0xF0#8, 0x80#8, 0xF0#8, 0x90#8, 0xF0#8,
     0xF0#8, 0x10#8, 0x20#8, 0x40#8, 0x40#8,
     0xF0#8, 0x90#8, 0xF0#8, 0x90#8, 0xF0#8,
     0xF0#8, 0x90#8, 0xF0#8, 0x10#8, 0xF0#8,
     0xF0#8, 0x90#8, 0xF0#8, 0x90#8, 0x90#8,
     0xE0#8, 0x90#8, 0xE0#8, 0x90#8, 0xE0#8,
     0xF0#8, 0x80#8, 0x80#8, 0x80#8, 0xF0#8,
     0xE0#8, 0x90#8, 0x90#8, 0x90#8, 0xE0#8,
     0xF0#8, 0x80#8, 0xF0#8, 0x80#8, 0xF0#8,
     0xF0#8, 0x80#8, 0xF0#8, 0x80#8, 0x80#8]

/-- The default parameters: P_SHIFT_SOURCE = VX (R7; log 5) and the table of R33. -/
def defaultParams : Params := { shiftSource := .vx, font := standardFont }

end Sys2Proof.Machine
end

