-- ==== Sys2Proof/Machine/State.lean ====
section
/-! DEFINITION. The machine's state (10_state.md R20), its faults (60_exceptions.md R300) and its power-on state (R41, R400). -/

namespace Sys2Proof.Machine

/-- The state record of R20, with two fields of the model's own: `draws` and `params`. -/
structure State where
  /-- V0..VF (R21); VF is also the flag register (R22). -/
  v : Vector Byte 16
  /-- I, the index register (R24). -/
  i : Word
  /-- PC, the program counter (R25, R26). -/
  pc : Word
  /-- Stack, 16 return addresses (R27). -/
  stack : Vector Word 16
  /-- SP, the number of live stack entries, 0..16 (R28). -/
  sp : Fin 17
  /-- DT, the delay timer (R29). -/
  dt : Byte
  /-- ST, the sound timer (R30). -/
  st : Byte
  /-- RAM (R31). -/
  ram : Memory
  /-- Disp, the display grid (R34). -/
  disp : Grid
  /-- Keys, the 16 key levels, true is down (R36). -/
  keys : Vector Bool 16
  /-- dispChanged, the output flag to the host (R38). -/
  dispChanged : Bool
  /-- The MODEL's own: how many random draws have been consumed (log 1). -/
  draws : Nat
  /-- The MODEL's own: the parameters, which nothing writes (R7, R33; log 3). -/
  params : Params
deriving DecidableEq, Repr

/-- The fault kinds of R300, with the info each records. Each leaves every piece of state unchanged (R11, R305). All are
SAFE: the machine itself reports them. -/
inductive Fault where
  /-- A STEP fetched an opcode that matches no row of R77 (R301). Raised by the step cycle. Safe. -/
  | invalidOpcode (op : Word)
  /-- A 2NNN with SP = 16; the info is its PC (R104, R302). Raised by CALL. Safe. -/
  | stackOverflow (pc : Word)
  /-- A 00EE with SP = 0; the info is its PC (R102, R302). Raised by RET. Safe. -/
  | stackUnderflow (pc : Word)
  /-- An access above 0xFFF; the info is the lowest such address (R55, R302). Raised by the fetch, DRW, LD_B_VX, LD_MEM_VX and
  LD_VX_MEM. Safe. -/
  | addressOutOfRange (a : Nat)
  /-- A LOAD of more than 3584 bytes; the info is the byte count (R303, R402). Raised by the LOAD command. Safe. -/
  | loadError (length : Nat)
  /-- An IMPORT of a malformed record (R304, R408). Raised by the IMPORT command. Safe. -/
  | stateImportError
deriving DecidableEq, Repr

/-- Refusals of the model. -/
inductive Refusal where
  /-- An instruction without a meaning, raised by its arm of `exec` only. Safe. No arm of this model raises it
  (log 14). -/
  | notModelled (mnemonic : String)
deriving DecidableEq, Repr

/-- The power-on state of a machine with the given parameters (R41, R400). -/
def State.powerOn (p : Params) : State where
  v := Vector.replicate 16 0#8
  i := 0x0000#16
  pc := 0x0200#16
  stack := Vector.replicate 16 0x0000#16
  sp := 0
  dt := 0#8
  st := 0#8
  ram := []
  disp := clearGrid
  keys := Vector.replicate 16 false
  dispChanged := true
  draws := 0
  params := p

/-- The machine right after power-on, with the default parameters (R41, R7, R33; log 4, log 5). -/
def State.reset : State := State.powerOn defaultParams

end Sys2Proof.Machine
end

