-- ==== Sys2Proof/Machine/Ops.lean ====
section
/-! DEFINITION. The named operations over registers, memory, stack, display and keys, and raising a fault. Instructions and
host commands are written over these. -/

namespace Sys2Proof.Machine

/-- What one step or command answers. -/
abbrev StepResult := Host.Outcome State Fault Refusal

/-! ### Faults (60_exceptions.md) -/

/-- Taking an exception: a fault transfers no control, saves nothing and changes no mode, so it is the fault outcome itself
and the state stays (R308, R11). There is no return from one (R309). -/
def raise (f : Fault) : StepResult := .fault f

/-- Go on with a checked value, or raise the fault its check found. Nothing has been written when the fault is raised
(R11, R55). -/
def attempt {α : Type} (r : Except Fault α) (k : α → StepResult) : StepResult :=
  match r with
  | .error f => raise f
  | .ok a => k a

/-! ### Registers (10_state.md R21 to R30) -/

/-- Read V[x]. -/
def State.getV (s : State) (x : Reg) : Byte := s.v[x.val]

/-- Write V[x]. -/
def State.setV (s : State) (x : Reg) (b : Byte) : State := { s with v := s.v.set x.val b }

/-- The number of VF, the flag register (R22). -/
def regF : Reg := 15

/-- Write the whole register file. -/
def State.setRegs (s : State) (r : Vector Byte 16) : State := { s with v := r }

/-- Write I (R24). -/
def State.setI (s : State) (w : Word) : State := { s with i := w }

/-- Write PC (R25). -/
def State.setPc (s : State) (w : Word) : State := { s with pc := w }

/-- Write DT (R29). -/
def State.setDt (s : State) (b : Byte) : State := { s with dt := b }

/-- Write ST (R30). -/
def State.setSt (s : State) (b : Byte) : State := { s with st := b }

/-- `PC <- PC + 2`, modulo 2^16: completed, no branch (R25, R81). -/
def State.advance (s : State) : State := s.setPc (s.pc + 2#16)

/-- `PC <- PC + 4` when the condition holds and `PC + 2` when not, modulo 2^16 (R120). -/
def State.skipIf (s : State) (c : Bool) : State := s.setPc (s.pc + (if c then 4#16 else 2#16))

/-- One more random draw has been consumed (log 1). -/
def State.countDraw (s : State) : State := { s with draws := s.draws + 1 }

/-! ### Memory (20_memory.md) -/

/-- The byte RAM holds at an address. Instructions reach it only below 0x1000, behind `checkRange` (log 13). -/
def State.byteAt (s : State) (a : Nat) : Byte := s.ram.read s.params.font a

/-- The bytes at `a`, `a + 1`, ..., `n` of them. -/
def State.bytesAt (s : State) (a n : Nat) : List Byte :=
  match n with
  | 0 => []
  | k + 1 => s.byteAt a :: s.bytesAt (a + 1) k

/-- Write bytes at `a`, `a + 1`, ... -/
def State.putBytes (s : State) (a : Nat) (bytes : List Byte) : State :=
  { s with ram := s.ram.writeBytes s.params.font a bytes }

/-- `check_range(a, n)` (R55): the `n` addresses from `a` must lie at or below 0xFFF; the fault names the lowest that does
not. `check_range(a, 0)` never faults. -/
def checkRange (a n : Nat) : Except Fault Unit :=
  if n > 0 ∧ a + n - 1 > 0xFFF then .error (.addressOutOfRange (max a 0x1000)) else .ok ()

/-- Read `n` bytes from `a`, the whole range checked first (R10, R55). -/
def memRead (s : State) (a n : Nat) : Except Fault (List Byte) :=
  match checkRange a n with
  | .error f => .error f
  | .ok _ => .ok (s.bytesAt a n)

/-- Write bytes from `a`, the whole range checked before any write (R10, R55). Every address may be written (R52). -/
def memWrite (s : State) (a : Nat) (bytes : List Byte) : Except Fault State :=
  match checkRange a bytes.length with
  | .error f => .error f
  | .ok _ => .ok (s.putBytes a bytes)

/-- Fetch: the big-endian opcode at PC and PC + 1, the sum exact (R53, R55, R71). PC is not advanced (R80). -/
def fetch (s : State) : Except Fault Word :=
  match checkRange s.pc.toNat 2 with
  | .error f => .error f
  | .ok _ => .ok (opcodeOf (s.byteAt s.pc.toNat) (s.byteAt (s.pc.toNat + 1)))

/-- Place the one word of a table row where the next fetch reads it, at PC and PC + 1, when both lie in RAM (log 7). -/
def placeWord (s : State) (nbits w : Nat) : State :=
  if s.pc.toNat + 1 < ramSize then s.putBytes s.pc.toNat (tableBytes nbits w) else s

/-! ### The return stack (10_state.md R27, R28) -/

/-- Push a return address: `Stack[SP] <- w; SP <- SP + 1`, or StackOverflow(PC) when SP = 16 (R104). -/
def pushStack (s : State) (w : Word) : Except Fault State :=
  if h : s.sp.val < 16 then
    .ok { s with stack := s.stack.set s.sp.val w h, sp := ⟨s.sp.val + 1, by omega⟩ }
  else .error (.stackOverflow s.pc)

/-- Pop the top entry: `SP <- SP - 1`, the entry is kept, or StackUnderflow(PC) when SP = 0 (R102, R27). -/
def popStack (s : State) : Except Fault (Word × State) :=
  if h : s.sp.val = 0 then .error (.stackUnderflow s.pc)
  else .ok (s.stack[s.sp.val - 1]'(by omega), { s with sp := ⟨s.sp.val - 1, by omega⟩ })

/-! ### Display and keys (10_state.md R35, R36, R38) -/

/-- Show a new grid and tell the host: 00E0 and DXYN set `dispChanged` (R38). -/
def State.showGrid (s : State) (d : Grid) : State := { s with disp := d, dispChanged := true }

/-- `isPressed(v)`: the level of key v for v in 0..15, and false for any other v (R327). -/
def State.isPressed (s : State) (v : Nat) : Bool :=
  if h : v < 16 then s.keys[v] else false

/-- Set the level of key k; an index above 15 names no key and changes nothing (R325, R326). -/
def State.setKey (s : State) (k : Nat) (down : Bool) : State :=
  { s with keys := s.keys.setIfInBounds k down }

/-- The lowest key at or above `k` that is down, looking at `n` keys. -/
def lowestKeyFrom (s : State) (k n : Nat) : Option Nat :=
  match n with
  | 0 => none
  | m + 1 => if s.isPressed k then some k else lowestKeyFrom s (k + 1) m

/-- The lowest key in 0..15 that is down, if any is (R230). -/
def lowestKey (s : State) : Option Nat := lowestKeyFrom s 0 16

end Sys2Proof.Machine
end

