-- ==== Sys2Proof/Machine/Operands.lean ====
section
/-! DEFINITION. The operand forms the instructions read (30_encoding.md R72, R73). -/

namespace Sys2Proof.Machine

/-- NNN as a 16-bit address, `zext_16(NNN)` (R73). -/
def addrOperand (nnn : BitVec 12) : Word := nnn.setWidth 16

/-- A byte as a 16-bit value, `zext_16` (R9). -/
def zext16 (b : Byte) : Word := b.setWidth 16

/-- The source of a shift: VX, or VY under P_SHIFT_SOURCE = VY (R148, R150). -/
def shiftOperand (s : State) (x y : Reg) : Byte :=
  match s.params.shiftSource with
  | .vx => s.getV x
  | .vy => s.getV y

/-- I as a memory address, exact (R55). -/
def indexAddress (s : State) : Nat := s.i.toNat

/-- The first `n` of the registers V0.. as a list. -/
def regList (r : Vector Byte 16) (n : Nat) : List Byte := r.toList.take n

/-- V0..VX inclusive, the block FX55 stores (R206). -/
def regBlock (s : State) (x : Reg) : List Byte := regList s.v (x.val + 1)

/-- The registers with V[k] replaced by the k-th byte of a list, for as many as the list has (R207). -/
def fillRegs (r : Vector Byte 16) (k : Nat) (bytes : List Byte) : Vector Byte 16 :=
  match bytes with
  | [] => r
  | b :: rest => fillRegs (r.setIfInBounds k b) (k + 1) rest

/-- The three decimal digits of a byte, hundreds first (R205). -/
def bcdDigits (b : Byte) : List Byte :=
  [BitVec.ofNat 8 (b.toNat / 100), BitVec.ofNat 8 (b.toNat / 10 % 10), BitVec.ofNat 8 (b.toNat % 10)]

/-- The key a register names is down: the register's whole value is the index, not masked (R125, R327). -/
def keyOperandDown (s : State) (x : Reg) : Bool := s.isPressed (s.getV x).toNat

end Sys2Proof.Machine
end

