-- ==== Sys2Proof/Machine/ControlFlow.lean ====
section
/-! DEFINITION. Control flow (40_control_flow.md): 00E0, 00EE, 1NNN, 2NNN, BNNN. No target is checked (R100). -/

namespace Sys2Proof.Machine

/-- 00E0: every pixel false, `dispChanged` set (R101). -/
def execCls (s : State) : StepResult := .next (s.showGrid clearGrid).advance

/-- 00EE: pop the top of the stack into PC, unchanged (R102). -/
def execRet (s : State) : StepResult := attempt (popStack s) fun p => .next (p.2.setPc p.1)

/-- 1NNN: jump (R103). -/
def execJp (nnn : BitVec 12) (s : State) : StepResult := .next (s.setPc (addrOperand nnn))

/-- 2NNN: push PC + 2, the return address, and jump (R104). -/
def execCall (nnn : BitVec 12) (s : State) : StepResult :=
  attempt (pushStack s (s.pc + 2#16)) fun t => .next (t.setPc (addrOperand nnn))

/-- BNNN: jump to NNN + V0, not masked to 12 bits (R105). -/
def execJpV0 (nnn : BitVec 12) (s : State) : StepResult :=
  .next (s.setPc (addrOperand nnn + zext16 (s.getV 0)))

end Sys2Proof.Machine
end

