-- ==== Sys2Proof/Machine/Flags.lean ====
section
/-! DEFINITION. The flag computations (42_register_arith.md R146 to R151): VF is 0 or 1 and is written last (R12). -/

namespace Sys2Proof.Machine

/-- A flag as the byte VF gets. -/
def flagByte (c : Bool) : Byte := if c then 1#8 else 0#8

/-- `a + b` modulo 256, from the exact sum (R151). -/
def addByte (a b : Byte) : Byte := BitVec.ofNat 8 (a.toNat + b.toNat)

/-- Carry: the exact sum exceeds 255 (R146). -/
def carry (a b : Byte) : Bool := decide (a.toNat + b.toNat > 255)

/-- `a - b` modulo 256 (R147, R149). -/
def subByte (a b : Byte) : Byte := BitVec.ofNat 8 (a.toNat + 256 - b.toNat)

/-- No borrow: the minuend is at least the subtrahend (R147, R149). -/
def noBorrow (a b : Byte) : Bool := decide (b.toNat ≤ a.toNat)

/-- `a >> 1`, logical (R148). -/
def shiftRight (a : Byte) : Byte := BitVec.ofNat 8 (a.toNat / 2)

/-- The bit a right shift moves out, bit 0 (R148). -/
def outRight (a : Byte) : Bool := a.getLsbD 0

/-- `(a << 1) mod 256` (R150). -/
def shiftLeft (a : Byte) : Byte := BitVec.ofNat 8 (a.toNat * 2)

/-- The bit a left shift moves out, bit 7 (R150). -/
def outLeft (a : Byte) : Bool := a.getLsbD 7

/-- Write a result to VX and then the flag to VF, so that with X = 0xF the flag stays (R12, R22). -/
def State.setVFlag (s : State) (x : Reg) (result : Byte) (flag : Bool) : State :=
  (s.setV x result).setV regF (flagByte flag)

end Sys2Proof.Machine
end

