-- ==== Sys2Proof/Machine/IndexDraw.lean ====
section
/-! DEFINITION. Index, random and draw (43_index_random_draw.md R170 to R175). -/

namespace Sys2Proof.Machine

/-- ANNN: `I <- zext_16(NNN)` (R170). -/
def execLdI (nnn : BitVec 12) (s : State) : StepResult := .next (s.setI (addrOperand nnn)).advance

/-- CXNN with a given draw: `V[X] <- rand & NN` (R171). -/
def rndWith (rand : Byte) (x : Reg) (nn : Byte) (s : State) : StepResult :=
  .next ((s.setV x (rand &&& nn)).countDraw).advance

/-- CXNN with the draw left open: the free value of this draw (R40, R171; log 1). -/
def execRnd (x : Reg) (nn : Byte) (s : State) : StepResult := rndWith (Config.freeDraw s.draws) x nn s

/-- DXYN: draw the N rows at I at (VX mod 64, VY mod 32), VF the collision flag, `dispChanged` set; the range is checked
first, and N = 0 reads nothing (R172). The pixel helpers do the reductions (R174, R331). -/
def execDrw (x y : Reg) (n : BitVec 4) (s : State) : StepResult :=
  attempt (memRead s (indexAddress s) n.toNat) fun rows =>
    let drawn := drawSprite rows ((s.getV x).toNat % 64) ((s.getV y).toNat % 32) s.disp
    .next ((s.showGrid drawn.1).setV regF (flagByte drawn.2)).advance

end Sys2Proof.Machine
end

