-- ==== Sys2Proof/Machine/KeyWait.lean ====
section
/-! DEFINITION. Blocking key wait (45_key_wait.md R230 to R232). -/

namespace Sys2Proof.Machine

/-- FX0A: the lowest key that is down goes into VX; with no key down nothing changes at all, so the same FX0A runs again at
the next STEP (R230). -/
def execLdVxK (x : Reg) (s : State) : StepResult :=
  match lowestKey s with
  | none => .next s
  | some k => .next (s.setV x (BitVec.ofNat 8 k)).advance

end Sys2Proof.Machine
end

