-- ==== Sys2Proof/Machine/RegArith.lean ====
section
/-! DEFINITION. Register load and arithmetic (42_register_arith.md R140 to R151). -/

namespace Sys2Proof.Machine

/-- Write a result to VX, no flag, and go on. -/
def setResult (s : State) (x : Reg) (result : Byte) : StepResult := .next (s.setV x result).advance

/-- Write a result to VX and a flag to VF, the flag last, and go on. -/
def setFlagged (s : State) (x : Reg) (result : Byte) (flag : Bool) : StepResult :=
  .next (s.setVFlag x result flag).advance

/-- 6XNN: `V[X] <- NN` (R140). -/
def execLdImm (x : Reg) (nn : Byte) (s : State) : StepResult := setResult s x nn

/-- 7XNN: `V[X] <- (V[X] + NN) mod 256`, no carry (R141). -/
def execAddImm (x : Reg) (nn : Byte) (s : State) : StepResult := setResult s x (addByte (s.getV x) nn)

/-- 8XY0: `V[X] <- V[Y]` (R142). -/
def execLdReg (x y : Reg) (s : State) : StepResult := setResult s x (s.getV y)

/-- 8XY1: `V[X] <- V[X] | V[Y]`, VF not reset (R143). -/
def execOrReg (x y : Reg) (s : State) : StepResult := setResult s x (s.getV x ||| s.getV y)

/-- 8XY2: `V[X] <- V[X] & V[Y]` (R144). -/
def execAndReg (x y : Reg) (s : State) : StepResult := setResult s x (s.getV x &&& s.getV y)

/-- 8XY3: `V[X] <- V[X] ^ V[Y]` (R145). -/
def execXorReg (x y : Reg) (s : State) : StepResult := setResult s x (s.getV x ^^^ s.getV y)

/-- 8XY4: the sum modulo 256, VF the carry (R146). -/
def execAddReg (x y : Reg) (s : State) : StepResult :=
  setFlagged s x (addByte (s.getV x) (s.getV y)) (carry (s.getV x) (s.getV y))

/-- 8XY5: VX - VY modulo 256, VF no borrow (R147). -/
def execSub (x y : Reg) (s : State) : StepResult :=
  setFlagged s x (subByte (s.getV x) (s.getV y)) (noBorrow (s.getV x) (s.getV y))

/-- 8XY6: shift the source right by one, VF the bit out (R148). -/
def execShr (x y : Reg) (s : State) : StepResult :=
  setFlagged s x (shiftRight (shiftOperand s x y)) (outRight (shiftOperand s x y))

/-- 8XY7: VY - VX modulo 256, VF no borrow (R149). -/
def execSubn (x y : Reg) (s : State) : StepResult :=
  setFlagged s x (subByte (s.getV y) (s.getV x)) (noBorrow (s.getV y) (s.getV x))

/-- 8XYE: shift the source left by one, VF the bit out (R150). -/
def execShl (x y : Reg) (s : State) : StepResult :=
  setFlagged s x (shiftLeft (shiftOperand s x y)) (outLeft (shiftOperand s x y))

end Sys2Proof.Machine
end

