-- ==== Sys2Proof/Machine/Skip.lean ====
section
/-! DEFINITION. Conditional skips (41_conditional_skip.md R120 to R126). -/

namespace Sys2Proof.Machine

/-- 3XNN: skip when VX equals NN (R121). -/
def execSeImm (x : Reg) (nn : Byte) (s : State) : StepResult := .next (s.skipIf (decide (s.getV x = nn)))

/-- 4XNN: skip when VX differs from NN (R122). -/
def execSneImm (x : Reg) (nn : Byte) (s : State) : StepResult := .next (s.skipIf (decide (s.getV x ≠ nn)))

/-- 5XY0: skip when VX equals VY (R123). -/
def execSeReg (x y : Reg) (s : State) : StepResult := .next (s.skipIf (decide (s.getV x = s.getV y)))

/-- 9XY0: skip when VX differs from VY (R124). -/
def execSneReg (x y : Reg) (s : State) : StepResult := .next (s.skipIf (decide (s.getV x ≠ s.getV y)))

/-- EX9E: skip when the key whose index is in VX is down (R125). -/
def execSkp (x : Reg) (s : State) : StepResult := .next (s.skipIf (keyOperandDown s x))

/-- EXA1: skip when the key whose index is in VX is up; an index above 15 counts as up (R126). -/
def execSknp (x : Reg) (s : State) : StepResult := .next (s.skipIf (!keyOperandDown s x))

end Sys2Proof.Machine
end

