-- ==== Sys2Proof/Machine/TimersMisc.lean ====
section
/-! DEFINITION. Timers and miscellaneous (44_timers_misc.md R200 to R207). -/

namespace Sys2Proof.Machine

/-- FX07: `V[X] <- DT` (R200). -/
def execLdVxDt (x : Reg) (s : State) : StepResult := .next (s.setV x s.dt).advance

/-- FX15: `DT <- V[X]` (R201). -/
def execLdDtVx (x : Reg) (s : State) : StepResult := .next (s.setDt (s.getV x)).advance

/-- FX18: `ST <- V[X]` (R202). -/
def execLdStVx (x : Reg) (s : State) : StepResult := .next (s.setSt (s.getV x)).advance

/-- FX1E: `I <- (I + zext_16(V[X])) mod 2^16`, no flag (R203). -/
def execAddIVx (x : Reg) (s : State) : StepResult := .next (s.setI (s.i + zext16 (s.getV x))).advance

/-- FX29: `I <- 5 * V[X]`, no masking (R204). -/
def execLdFVx (x : Reg) (s : State) : StepResult :=
  .next (s.setI (BitVec.ofNat 16 (5 * (s.getV x).toNat))).advance

/-- FX33: the three decimal digits of VX to I, I + 1, I + 2 (R205). -/
def execLdBVx (x : Reg) (s : State) : StepResult :=
  attempt (memWrite s (indexAddress s) (bcdDigits (s.getV x))) fun t => .next t.advance

/-- FX55: V0..VX to I..I+X, I unchanged (R206). -/
def execLdMemVx (x : Reg) (s : State) : StepResult :=
  attempt (memWrite s (indexAddress s) (regBlock s x)) fun t => .next t.advance

/-- FX65: I..I+X to V0..VX, I unchanged (R207). -/
def execLdVxMem (x : Reg) (s : State) : StepResult :=
  attempt (memRead s (indexAddress s) (x.val + 1)) fun bytes => .next (s.setRegs (fillRegs s.v 0 bytes)).advance

end Sys2Proof.Machine
end

