-- ==== Sys2Proof/Machine/Cycle.lean ====
section
/-! DEFINITION. The step cycle (30_encoding.md R80) and the STEP command with its random byte (43_index_random_draw.md R171,
60_exceptions.md R335). -/

namespace Sys2Proof.Machine

/-- Fetch, decode, execute, in the order of R80 and R306: the fetch's range fault, then InvalidOpcode, then what the
instruction answers. PC is not advanced by the fetch. -/
def cycleWith (run : Instr → State → StepResult) (s : State) : StepResult :=
  attempt (fetch s) fun op =>
    match decode op with
    | none => raise (.invalidOpcode op)
    | some i => run i s

/-- Execute an instruction with the STEP's random byte. Only CXNN consumes it; a STEP that runs another instruction ignores
it (R40, R335). -/
def execWith (rand : Byte) (i : Instr) (s : State) : StepResult :=
  match i with
  | .rnd x nn => rndWith rand x nn s
  | other => exec other s

/-- `STEP(rand)` (R80, R340). -/
def stepWith (rand : Byte) (s : State) : StepResult := cycleWith (execWith rand) s

/-- STEP with its random byte left open: a CXNN takes the free draw (log 1, log 2). -/
def stepFree (s : State) : StepResult := cycleWith exec s

end Sys2Proof.Machine
end

