-- ==== Sys2Proof/Machine/Step.lean ====
section
/-! DEFINITION. The host's two entry points: one step of the machine, which is the STEP command of 30_encoding.md R80, and
placing an instruction where the next step fetches it. -/

namespace Sys2Proof.Machine

/-- One step: the STEP command (R80) with its random byte left open. -/
def step (s : State) : Host.Outcome State Fault Refusal := stepFree s

/-- The state with one instruction word stored at PC, where `step` fetches its next instruction (log 7). -/
def State.withFetchWord (s : State) (nbits w : Nat) : State := placeWord s nbits w

end Sys2Proof.Machine
end

