-- ==== Sys2Proof/Machine/Transfer.lean ====
section
/-! DEFINITION. State export and import (70_reset_and_hazards.md R406 to R408). The record is abstract: its byte layout is the
open parameter P_EXPORT_ENCODING (log 9). -/

namespace Sys2Proof.Machine

/-- An exported state (R406), as a host may hand it back: plain numbers, a field may be missing, and there may be fields the
record should not have (R408). `disp` is the 64 columns of 32 pixels. -/
structure StateRecord where
  ram : Option (List Nat)
  v : Option (List Nat)
  i : Option Nat
  pc : Option Nat
  stack : Option (List Nat)
  sp : Option Nat
  dt : Option Nat
  st : Option Nat
  disp : Option (List (List Bool))
  /-- How many fields the record holds beside the nine. -/
  extraFields : Nat
deriving DecidableEq, Repr

/-- EXPORT's record: RAM, V, I, PC, Stack, SP, DT, ST and Disp; not Keys, not dispChanged (R406). -/
def exportRecord (s : State) : StateRecord where
  ram := some ((s.bytesAt 0 ramSize).map BitVec.toNat)
  v := some (s.v.toList.map BitVec.toNat)
  i := some s.i.toNat
  pc := some s.pc.toNat
  stack := some (s.stack.toList.map BitVec.toNat)
  sp := some s.sp.val
  dt := some s.dt.toNat
  st := some s.st.toNat
  disp := some (s.disp.toList.map Vector.toList)
  extraFields := 0

/-- A number as a `w`-bit value, if it is in range (R408). -/
def checkedWord (w : Nat) (x : Nat) : Option (BitVec w) :=
  if x < 2 ^ w then some (BitVec.ofNat w x) else none

/-- Exactly `n` numbers as `w`-bit values, if all are in range (R408). -/
def checkedVector (w n : Nat) (xs : List Nat) : Option (Vector (BitVec w) n) :=
  if h : xs.length = n ∧ ∀ x ∈ xs, x < 2 ^ w then
    some ⟨(xs.map (BitVec.ofNat w)).toArray, by simp [h.1]⟩
  else none

/-- Exactly 4096 byte values as memory, in canonical form (R408). -/
def checkedRam (font : Font) (xs : List Nat) : Option Memory :=
  if xs.length = ramSize ∧ ∀ x ∈ xs, x < 2 ^ 8 then some (Memory.ofBytes font 0 (xs.map (BitVec.ofNat 8))) else none

/-- A stack depth in 0..16 (R408). -/
def checkedDepth (x : Nat) : Option (Fin 17) :=
  if h : x < 17 then some ⟨x, h⟩ else none

/-- Exactly 64 columns of 32 booleans as a grid (R408). -/
def checkedGrid (cols : List (List Bool)) : Option Grid :=
  if h : cols.length = 64 ∧ ∀ c ∈ cols, c.length = 32 then
    some ⟨(cols.attach.map fun c => (⟨c.val.toArray, by simp [h.2 c.val c.property]⟩ : Vector Bool 32)).toArray,
      by simp [h.1]⟩
  else none

/-- The state a well-formed record gives, `none` for a malformed one: RAM, V, I, PC, Stack, SP, DT, ST and Disp from the
record, `dispChanged` set, Keys kept (R407); the model's own fields kept (log 15). -/
def importedState (r : StateRecord) (s : State) : Option State := do
  let ram ← r.ram.bind (checkedRam s.params.font)
  let v ← r.v.bind (checkedVector 8 16)
  let i ← r.i.bind (checkedWord 16)
  let pc ← r.pc.bind (checkedWord 16)
  let stack ← r.stack.bind (checkedVector 16 16)
  let sp ← r.sp.bind checkedDepth
  let dt ← r.dt.bind (checkedWord 8)
  let st ← r.st.bind (checkedWord 8)
  let disp ← r.disp.bind checkedGrid
  if r.extraFields = 0 then
    some { s with ram, v, i, pc, stack, sp, dt, st, disp, dispChanged := true }
  else none

/-- IMPORT: all-or-nothing (R304, R407). -/
def importState (r : StateRecord) (s : State) : StepResult :=
  match importedState r s with
  | none => raise .stateImportError
  | some t => .next t

end Sys2Proof.Machine
end

