-- ==== Sys2Proof/Machine/Commands.lean ====
section
/-! DEFINITION. The host's eight commands (60_exceptions.md R340 to R345, R320 to R331; 70_reset_and_hazards.md R400 to R408),
their responses and the two level outputs (10_state.md R38, R39). -/

namespace Sys2Proof.Machine

/-! ### What each command does to the state -/

/-- MAX_PROGRAM: 4096 - 512 bytes (R7, R402). -/
def maxProgram : Nat := 3584

/-- PROGRAM_BASE (R7, R405). -/
def programBase : Nat := 0x200

/-- LOAD: more than 3584 bytes is LoadError(L) and changes nothing (R402); otherwise the whole state is the power-on state
with byte j of the program at 0x200 + j (R403, R405). The parameters and the count of draws are the model's own and stay
(log 3, log 15). -/
def loadProgram (bytes : List Byte) (s : State) : StepResult :=
  if bytes.length > maxProgram then raise (.loadError bytes.length)
  else .next { State.powerOn s.params with ram := Memory.ofBytes s.params.font programBase bytes, draws := s.draws }

/-- One timer counts down, with a floor of 0 (R320). -/
def countDown (b : Byte) : Byte := if b.toNat > 0 then BitVec.ofNat 8 (b.toNat - 1) else 0#8

/-- TICK: both timers count down; nothing else changes (R320). -/
def tick (s : State) : State := (s.setDt (countDown s.dt)).setSt (countDown s.st)

/-- KEY_DOWN(k): key k is down; an index above 15 has no effect (R325). -/
def keyDown (k : Nat) (s : State) : State := s.setKey k true

/-- KEY_UP(k): key k is up; an index above 15 has no effect (R326). -/
def keyUp (k : Nat) (s : State) : State := s.setKey k false

/-- DISPLAY_READ clears `dispChanged`; the grid is the response (R330). -/
def displayRead (s : State) : State := { s with dispChanged := false }

/-! ### Commands and responses -/

/-- The eight commands with what the host sends (R340). -/
inductive Command where
  | load (bytes : List Byte)
  | step (rand : Byte)
  | tick
  | keyDown (k : Nat)
  | keyUp (k : Nat)
  | displayRead
  | exportState
  | importState (r : StateRecord)
deriving DecidableEq, Repr

/-- What the block returns (R340, R344). -/
inductive Response where
  /-- OK, code 0. -/
  | ok
  /-- A fault with its info (R300). -/
  | fault (f : Fault)
  /-- DISPLAY_READ's copy of the grid (R330). -/
  | grid (d : Grid)
  /-- EXPORT's record (R406). -/
  | record (r : StateRecord)
  /-- An instruction the model gives no meaning; no instruction of this model answers it. -/
  | refused (r : Refusal)
deriving DecidableEq, Repr

/-- The numeric code of a fault (R300; D26). -/
def faultCode : Fault → Nat
  | .invalidOpcode _ => 1
  | .stackOverflow _ => 2
  | .stackUnderflow _ => 3
  | .addressOutOfRange _ => 4
  | .loadError _ => 5
  | .stateImportError => 6

/-- The numeric result of a command (R300): 0 for OK, a fault's code otherwise. -/
def resultCode : Response → Nat
  | .fault f => faultCode f
  | _ => 0

/-- The info recorded with a fault, where its kind has one (R300). -/
def faultInfo : Fault → Option Nat
  | .invalidOpcode op => some op.toNat
  | .stackOverflow pc => some pc.toNat
  | .stackUnderflow pc => some pc.toNat
  | .addressOutOfRange a => some a
  | .loadError n => some n
  | .stateImportError => none

/-- Commit a result: the next state and OK, or the state as it was before the command and its fault (R11, R308; log 8). -/
def settle (s : State) (r : StepResult) : State × Response :=
  match r with
  | .next t => (t, .ok)
  | .fault f => (s, .fault f)
  | .refused n => (s, .refused n)

/-- One command, atomic (R57, R341): the state after it and its response (R340). TICK and key events apply in every state,
after a fault too (R320, R309). -/
def perform (c : Command) (s : State) : State × Response :=
  match c with
  | .load bytes => settle s (loadProgram bytes s)
  | .step rand => settle s (stepWith rand s)
  | .tick => (tick s, .ok)
  | .keyDown k => (keyDown k s, .ok)
  | .keyUp k => (keyUp k s, .ok)
  | .displayRead => (displayRead s, .grid s.disp)
  | .exportState => (s, .record (exportRecord s))
  | .importState r => settle s (importState r s)

/-- Commands in their one total order (R58): each sees the state the earlier ones left. Any order of STEPs, TICKs and key
events may be given (R424). -/
def performAll (cs : List Command) (s : State) : State × List Response :=
  match cs with
  | [] => (s, [])
  | c :: rest =>
    let first := perform c s
    let others := performAll rest first.1
    (others.1, first.2 :: others.2)

/-- A host's commands without end, command n the n-th (R411, R424). -/
abbrev Schedule := Nat → Command

/-- The state in which the n-th command of a schedule is performed, from the state `s` (R58). -/
def stateBefore (sched : Schedule) (s : State) (n : Nat) : State :=
  match n with
  | 0 => s
  | k + 1 => (perform (sched k) (stateBefore sched s k)).1

/-! ### Commands accepted in one cycle (R342) -/

/-- A command's place among commands of one cycle: IMPORT, LOAD, key events, TICK, STEP, then EXPORT and DISPLAY_READ
(R342; log 11). -/
def cycleRank : Command → Nat
  | .importState _ => 0
  | .load _ => 1
  | .keyDown _ => 2
  | .keyUp _ => 2
  | .tick => 3
  | .step _ => 4
  | .exportState => 5
  | .displayRead => 5

/-- The order in which commands of one cycle are performed; those of one rank stay in delivery order (R342). -/
def arbitrate (batch : List Command) : List Command :=
  [0, 1, 2, 3, 4, 5].flatMap fun rank => batch.filter fun c => cycleRank c == rank

/-- Perform the commands of one cycle (R342). -/
def performBatch (batch : List Command) (s : State) : State × List Response := performAll (arbitrate batch) s

/-! ### Level outputs -/

/-- `awaitingKey`: the opcode at PC decodes as FX0A, PC <= 0xFFE, and no key is down (R39). -/
def awaitingKey (s : State) : Bool :=
  match fetch s with
  | .error _ => false
  | .ok op =>
    match decode op with
    | some (.ldVxK _) => (lowestKey s).isNone
    | _ => false

end Sys2Proof.Machine
end

