-- ==== Sys2Proof/Safety.lean ====
section
/-! DEFINITION. The terms claims use: the invariant of a state, the end of a run (70_reset_and_hazards.md R411), a run without
faults, fairness of the host (R424), and which pieces of state an instruction may write (10_state.md R22 to R38). -/

namespace Sys2Proof.Machine

/-- The invariant every state of a run has: memory is in canonical form within RAM's 4096 bytes (R50; log 6). The ranges of
the other fields are in their types. -/
def State.Inv (s : State) : Prop := s.ram.wf s.params.font = true

/-! ### The end of a run (R411) -/

/-- The opcode at PC is 1NNN with NNN = PC, and PC <= 0xFFE (R411). -/
def atSelfJump (s : State) : Bool :=
  match fetch s with
  | .error _ => false
  | .ok op =>
    match decode op with
    | some (.jp nnn) => addrOperand nnn == s.pc
    | _ => false

/-- The observable end of a run: the first state, reached by a successful STEP, that is at a self-jump; `none` when the
commands reach none. A faulted STEP is never an end (R411). -/
def runEnd (cs : List Command) (s : State) : Option State :=
  match cs with
  | [] => none
  | .step rand :: rest =>
    match stepWith rand s with
    | .next t => if atSelfJump t then some t else runEnd rest t
    | _ => runEnd rest s
  | c :: rest => runEnd rest (perform c s).1

/-- A run without faults: every response has code 0 (R300). -/
def faultFree (cs : List Command) (s : State) : Bool := (performAll cs s).2.all fun r => resultCode r == 0

/-! ### Fairness of the host (R424, R345): premises of claims about progress, of which the machine guarantees none -/

/-- TICKs keep coming: after any command there is a later TICK, at no stated rate (R424). -/
def TicksRecur (sched : Schedule) : Prop := ∀ n, ∃ m, n ≤ m ∧ sched m = .tick

/-- STEPs keep coming (R345, R422). -/
def StepsRecur (sched : Schedule) : Prop := ∀ n, ∃ m rand, n ≤ m ∧ sched m = .step rand

/-- Command n is a STEP, and the host holds some key down across it: that key is down when the STEP runs (R232, R345). -/
def KeyHeldAtStep (sched : Schedule) (s : State) (n : Nat) : Prop :=
  (∃ rand, sched n = .step rand) ∧ ∃ k : Fin 16, (stateBefore sched s n).keys[k.val] = true

/-- The host eventually holds a key down across a STEP (R424). -/
def KeyEventuallyHeld (sched : Schedule) (s : State) : Prop := ∃ n, KeyHeldAtStep sched s n

/-- A host that is fair in all three: STEPs and TICKs keep coming, and after any command a key is again held across a STEP, so
that every wait a run reaches finds one (R345, R424). -/
structure FairHost (sched : Schedule) (s : State) : Prop where
  steps : StepsRecur sched
  ticks : TicksRecur sched
  keys : ∀ n, ∃ m, n ≤ m ∧ KeyHeldAtStep sched s m

/-! ### What an instruction may write -/

/-- The register an instruction may write as VX (R23). FX65's block is `loadsBlock`. -/
def destReg : Instr → Option Reg
  | .ldImm x _ => some x
  | .addImm x _ => some x
  | .ldReg x _ => some x
  | .orReg x _ => some x
  | .andReg x _ => some x
  | .xorReg x _ => some x
  | .addReg x _ => some x
  | .sub x _ => some x
  | .shr x _ => some x
  | .subn x _ => some x
  | .shl x _ => some x
  | .rnd x _ => some x
  | .ldVxDt x => some x
  | .ldVxK x => some x
  | .cls | .ret | .jp _ | .call _ | .seImm _ _ | .sneImm _ _ | .seReg _ _ | .sneReg _ _ | .ldI _ | .jpV0 _ => none
  | .drw _ _ _ | .skp _ | .sknp _ | .ldDtVx _ | .ldStVx _ | .addIVx _ | .ldFVx _ | .ldBVx _ | .ldMemVx _ => none
  | .ldVxMem _ => none

/-- The six instructions that write VF as a flag (R22). -/
def writesFlag : Instr → Bool
  | .addReg _ _ | .sub _ _ | .subn _ _ | .shr _ _ | .shl _ _ | .drw _ _ _ => true
  | .cls | .ret | .jp _ | .call _ | .seImm _ _ | .sneImm _ _ | .seReg _ _ | .ldImm _ _ | .addImm _ _ => false
  | .ldReg _ _ | .orReg _ _ | .andReg _ _ | .xorReg _ _ | .sneReg _ _ | .ldI _ | .jpV0 _ | .rnd _ _ => false
  | .skp _ | .sknp _ | .ldVxDt _ | .ldVxK _ | .ldDtVx _ | .ldStVx _ | .addIVx _ | .ldFVx _ | .ldBVx _ => false
  | .ldMemVx _ | .ldVxMem _ => false

/-- FX65 writes the block V0..VX (R23, R207). -/
def loadsBlock : Instr → Option Reg
  | .ldVxMem x => some x
  | .cls | .ret | .jp _ | .call _ | .seImm _ _ | .sneImm _ _ | .seReg _ _ | .ldImm _ _ | .addImm _ _ => none
  | .ldReg _ _ | .orReg _ _ | .andReg _ _ | .xorReg _ _ | .addReg _ _ | .sub _ _ | .shr _ _ | .subn _ _ => none
  | .shl _ _ | .sneReg _ _ | .ldI _ | .jpV0 _ | .rnd _ _ | .drw _ _ _ | .skp _ | .sknp _ | .ldVxDt _ => none
  | .ldVxK _ | .ldDtVx _ | .ldStVx _ | .addIVx _ | .ldFVx _ | .ldBVx _ | .ldMemVx _ => none

/-- Whether an instruction may write V[r] (R22, R23): r is its destination, or VF and it writes the flag, or r is in the block
of FX65. -/
def mayWriteReg (i : Instr) (r : Reg) : Bool :=
  (destReg i == some r) || (writesFlag i && r == regF) ||
    (match loadsBlock i with
     | some x => decide (r.val ≤ x.val)
     | none => false)

/-- How many bytes an instruction stores, from address I up: three for FX33, X + 1 for FX55, none for the others (R56). -/
def storeCount : Instr → Nat
  | .ldBVx _ => 3
  | .ldMemVx x => x.val + 1
  | .cls | .ret | .jp _ | .call _ | .seImm _ _ | .sneImm _ _ | .seReg _ _ | .ldImm _ _ | .addImm _ _ => 0
  | .ldReg _ _ | .orReg _ _ | .andReg _ _ | .xorReg _ _ | .addReg _ _ | .sub _ _ | .shr _ _ | .subn _ _ => 0
  | .shl _ _ | .sneReg _ _ | .ldI _ | .jpV0 _ | .rnd _ _ | .drw _ _ _ | .skp _ | .sknp _ | .ldVxDt _ => 0
  | .ldVxK _ | .ldDtVx _ | .ldStVx _ | .addIVx _ | .ldFVx _ | .ldVxMem _ => 0

/-- The instructions that read key levels (R36). -/
def readsKeys : Instr → Bool
  | .skp _ | .sknp _ | .ldVxK _ => true
  | .cls | .ret | .jp _ | .call _ | .seImm _ _ | .sneImm _ _ | .seReg _ _ | .ldImm _ _ | .addImm _ _ => false
  | .ldReg _ _ | .orReg _ _ | .andReg _ _ | .xorReg _ _ | .addReg _ _ | .sub _ _ | .shr _ _ | .subn _ _ => false
  | .shl _ _ | .sneReg _ _ | .ldI _ | .jpV0 _ | .rnd _ _ | .drw _ _ _ | .ldVxDt _ => false
  | .ldDtVx _ | .ldStVx _ | .addIVx _ | .ldFVx _ | .ldBVx _ | .ldMemVx _ | .ldVxMem _ => false

/-- How many bytes from address I an instruction's data access covers: DXYN reads N, FX33 writes 3, FX55 writes and FX65 reads
X + 1, the others none (R56). -/
def accessCount : Instr → Nat
  | .drw _ _ n => n.toNat
  | .ldBVx _ => 3
  | .ldMemVx x => x.val + 1
  | .ldVxMem x => x.val + 1
  | .cls | .ret | .jp _ | .call _ | .seImm _ _ | .sneImm _ _ | .seReg _ _ | .ldImm _ _ | .addImm _ _ => 0
  | .ldReg _ _ | .orReg _ _ | .andReg _ _ | .xorReg _ _ | .addReg _ _ | .sub _ _ | .shr _ _ | .subn _ _ => 0
  | .shl _ _ | .sneReg _ _ | .ldI _ | .jpV0 _ | .rnd _ _ | .skp _ | .sknp _ | .ldVxDt _ => 0
  | .ldVxK _ | .ldDtVx _ | .ldStVx _ | .addIVx _ | .ldFVx _ => 0

/-- The skip instructions (R120). -/
def isSkip : Instr → Bool
  | .seImm _ _ | .sneImm _ _ | .seReg _ _ | .sneReg _ _ | .skp _ | .sknp _ => true
  | .cls | .ret | .jp _ | .call _ | .ldImm _ _ | .addImm _ _ | .ldReg _ _ | .orReg _ _ | .andReg _ _ => false
  | .xorReg _ _ | .addReg _ _ | .sub _ _ | .shr _ _ | .subn _ _ | .shl _ _ | .ldI _ | .jpV0 _ | .rnd _ _ => false
  | .drw _ _ _ | .ldVxDt _ | .ldVxK _ | .ldDtVx _ | .ldStVx _ | .addIVx _ | .ldFVx _ | .ldBVx _ => false
  | .ldMemVx _ | .ldVxMem _ => false

/-- The instructions that set PC to a target (R25). -/
def isTransfer : Instr → Bool
  | .ret | .jp _ | .call _ | .jpV0 _ => true
  | .cls | .seImm _ _ | .sneImm _ _ | .seReg _ _ | .sneReg _ _ | .skp _ | .sknp _ | .ldImm _ _ | .addImm _ _ => false
  | .ldReg _ _ | .orReg _ _ | .andReg _ _ | .xorReg _ _ | .addReg _ _ | .sub _ _ | .shr _ _ | .subn _ _ => false
  | .shl _ _ | .ldI _ | .rnd _ _ | .drw _ _ _ | .ldVxDt _ | .ldVxK _ | .ldDtVx _ | .ldStVx _ | .addIVx _ => false
  | .ldFVx _ | .ldBVx _ | .ldMemVx _ | .ldVxMem _ => false

/-- Row r, column c of the sprite at I has a 1 bit; bit 7 is column 0 (R172, R173). -/
def spriteHas (s : State) (r c : Nat) : Bool := (s.byteAt (s.i.toNat + r)).getLsbD (7 - c)

/-- A 1 bit of the sprite DXYN draws falls on pixel (px, py): column c at (VX mod 64 + c) mod 64, row r at
(VY mod 32 + r) mod 32 (R172, R174). -/
def SpriteCovers (s : State) (x y : Reg) (n : BitVec 4) (px py : Nat) : Prop :=
  ∃ r c, r < n.toNat ∧ c < 8 ∧ spriteHas s r c = true ∧
    px = ((s.getV x).toNat % 64 + c) % 64 ∧ py = ((s.getV y).toNat % 32 + r) % 32

/-- A record IMPORT accepts: every check of R408, field by field. -/
def RecordWellFormed (r : StateRecord) : Prop :=
  (∃ l, r.ram = some l ∧ l.length = 4096 ∧ ∀ b ∈ l, b ≤ 0xFF) ∧
  (∃ l, r.v = some l ∧ l.length = 16 ∧ ∀ b ∈ l, b ≤ 0xFF) ∧
  (∃ w, r.i = some w ∧ w ≤ 0xFFFF) ∧
  (∃ w, r.pc = some w ∧ w ≤ 0xFFFF) ∧
  (∃ l, r.stack = some l ∧ l.length = 16 ∧ ∀ w ∈ l, w ≤ 0xFFFF) ∧
  (∃ d, r.sp = some d ∧ d ≤ 16) ∧
  (∃ b, r.dt = some b ∧ b ≤ 0xFF) ∧
  (∃ b, r.st = some b ∧ b ≤ 0xFF) ∧
  (∃ g, r.disp = some g ∧ g.length = 64 ∧ ∀ col ∈ g, col.length = 32) ∧
  r.extraFields = 0

/-- A command that replaces the program's state: LOAD or IMPORT (R309, R401). -/
def replacesState : Command → Bool
  | .load _ => true
  | .importState _ => true
  | .step _ | .tick | .keyDown _ | .keyUp _ | .displayRead | .exportState => false

/-- The same outcome with its next state changed by `f`. -/
def mapNext (f : State → State) (r : StepResult) : StepResult :=
  match r with
  | .next t => .next (f t)
  | .fault e => .fault e
  | .refused n => .refused n

end Sys2Proof.Machine
end

