-- ==== Sys2Proof/Certificates/Slice0/Obligations.lean ====
section
/-! DEFINITION. The statements for the provers, from the numbered rules of spec/. A statement `exec i s = .next t` is also the
completion of `i`: it has hypotheses on the state and operands alone. -/

open Sys2Proof Sys2Proof.Machine

/-! ### The step cycle -/

/-- R80: when the two bytes at PC decode to `i`, a step is `exec` of `i`, and `STEP(rand)` is its execution with that byte.
Nothing is added around it: fetch does not advance PC. -/
def Obligations.StepRunsDecoded : Prop :=
  ∀ (s : State) (i : Instr), s.pc.toNat + 1 ≤ 0xFFF →
    decode (opcodeOf (s.byteAt s.pc.toNat) (s.byteAt (s.pc.toNat + 1))) = some i →
    step s = exec i s ∧ ∀ rand, stepWith rand s = execWith rand i s

/-- R71: the opcode is `(RAM[PC] << 8) | RAM[PC+1]`; the fetch faults when PC + 1 > 0xFFF, naming the lowest address above
0xFFF (R55). -/
def Obligations.FetchReadsBigEndian : Prop :=
  (∀ s : State, s.pc.toNat + 1 ≤ 0xFFF →
    ∃ op, fetch s = .ok op ∧
      op.toNat = 256 * (s.byteAt s.pc.toNat).toNat + (s.byteAt (s.pc.toNat + 1)).toNat) ∧
  (∀ s : State, 0xFFF < s.pc.toNat + 1 → fetch s = .error (.addressOutOfRange (max s.pc.toNat 0x1000)))

/-- R306, R301: one STEP raises the first of these that applies: AddressOutOfRange at the fetch, InvalidOpcode, what the
instruction answers. -/
def Obligations.StepFaultOrder : Prop :=
  ∀ (s : State) (op : Word),
    op.toNat = 256 * (s.byteAt s.pc.toNat).toNat + (s.byteAt (s.pc.toNat + 1)).toNat →
    (0xFFF < s.pc.toNat + 1 → step s = .fault (.addressOutOfRange (max s.pc.toNat 0x1000))) ∧
    (s.pc.toNat + 1 ≤ 0xFFF → decode op = none → step s = .fault (.invalidOpcode op)) ∧
    (s.pc.toNat + 1 ≤ 0xFFF → ∀ i, decode op = some i → step s = exec i s)

/-- R302, R306, R55: exactly which instruction faults, when, and with what info. -/
def Obligations.InstructionFaults : Prop :=
  ∀ (i : Instr) (s : State) (f : Fault), exec i s = .fault f ↔
    ((∃ nnn, i = .call nnn) ∧ s.sp.val = 16 ∧ f = .stackOverflow s.pc) ∨
    (i = .ret ∧ s.sp.val = 0 ∧ f = .stackUnderflow s.pc) ∨
    (0 < accessCount i ∧ 0xFFF < s.i.toNat + accessCount i - 1 ∧ f = .addressOutOfRange (max s.i.toNat 0x1000))

/-- R302, R311: every one of the 34 instructions answers a next state: CALL when SP < 16, RET when SP > 0, DXYN, FX33, FX55
and FX65 when their range lies at or below 0xFFF, every other one always. -/
def Obligations.EveryInstructionCompletes : Prop :=
  ∀ (i : Instr) (s : State),
    (∀ nnn, i = .call nnn → s.sp.val < 16) → (i = .ret → 0 < s.sp.val) →
    (0 < accessCount i → s.i.toNat + accessCount i ≤ 0x1000) →
    ∃ t, exec i s = .next t

/-! ### Encoding -/

/-- R72: the fields of an opcode, as numbers. -/
def Obligations.OpcodeFields : Prop :=
  ∀ op : Word, (opFamily op).toNat = op.toNat / 4096 ∧ (opX op).val = op.toNat / 256 % 16 ∧
    (opY op).val = op.toNat / 16 % 16 ∧ (opN op).toNat = op.toNat % 16 ∧
    (opNN op).toNat = op.toNat % 256 ∧ (opNNN op).toNat = op.toNat % 4096

/-- R70, R75: decoding an encoded instruction gives it back, with every operand at every value, from the word and from the
bytes, whatever bytes follow. -/
def Obligations.DecodeEncodeAgree : Prop :=
  ∀ i : Instr, i.wellFormed = true →
    decode (encode i) = some i ∧ ∀ rest, decodeBytes (encodeBytes i ++ rest) = .ok (i, rest)

/-- R75, R77: each valid opcode is the encoding of the instruction it decodes to, so no bit is dropped. That the fixed digits
are checked is the spec's decision D3 (R76, log 12). -/
def Obligations.EncodeDecodeAgree : Prop :=
  ∀ (op : Word) (i : Instr), decode op = some i → encode i = op

/-- R75, R77: the decoder agrees with the opcode map: an opcode decodes to an instruction of a row exactly when
`op & mask = match` holds for that row, and no two rows select one opcode. That the fixed digits of 00E0, 00EE, 5XY0 and 9XY0
are checked is the spec's decision D3 (R76, log 12). -/
def Obligations.DecodeFollowsOpcodeMap : Prop :=
  (∀ op : Word, ∀ r ∈ opcodeMap,
    (r.selects op = true ↔ ∃ i, decode op = some i ∧ i.mnemonic = r.mnemonic)) ∧
  (∀ op : Word, ∀ r1 ∈ opcodeMap, ∀ r2 ∈ opcodeMap, r1.selects op = true → r2.selects op = true → r1 = r2)

/-- R78: the invalid opcodes are exactly those of the table of R78, family by family. -/
def Obligations.InvalidOpcodesRefused : Prop :=
  ∀ op : Word, decode op = none ↔
    (op.toNat / 4096 = 0x0 ∧ op.toNat ≠ 0x00E0 ∧ op.toNat ≠ 0x00EE) ∨
    (op.toNat / 4096 = 0x5 ∧ op.toNat % 16 ≠ 0) ∨
    (op.toNat / 4096 = 0x8 ∧ op.toNat % 16 ∈ [0x8, 0x9, 0xA, 0xB, 0xC, 0xD, 0xF]) ∨
    (op.toNat / 4096 = 0x9 ∧ op.toNat % 16 ≠ 0) ∨
    (op.toNat / 4096 = 0xE ∧ op.toNat % 256 ∉ [0x9E, 0xA1]) ∨
    (op.toNat / 4096 = 0xF ∧ op.toNat % 256 ∉ [0x07, 0x0A, 0x15, 0x18, 0x1E, 0x29, 0x33, 0x55, 0x65])

/-- R77: words written out from the opcode map decode to what they stand for; 01E0 decodes to nothing, the example R76 gives of
strict decoding, the spec's decision D3 (log 12). -/
def Obligations.KnownWordsDecode : Prop :=
  decodeTableWord 16 0x2ABC = some (.call 0xABC#12) ∧
  decodeTableWord 16 0xE5A1 = some (.sknp 5) ∧
  decodeTableWord 16 0x8AB7 = some (.subn 10 11) ∧
  decodeTableWord 16 0xD12F = some (.drw 1 2 0xF#4) ∧
  decodeTableWord 16 0xF733 = some (.ldBVx 7) ∧
  decodeTableWord 16 0xFC0A = some (.ldVxK 12) ∧
  decodeTableWord 16 0x01E0 = none

/-! ### Control flow -/

/-- R101: 00E0 and no other opcode is CLS; it makes every pixel false, sets dispChanged and PC + 2, and changes nothing else. -/
def Obligations.ClearDisplay : Prop :=
  (∀ op : Word, decode op = some .cls ↔ op = 0x00E0#16) ∧
  (∀ s : State, ∃ d : Grid, (∀ x y, getPixel d x y = false) ∧
    exec .cls s = .next { s with disp := d, dispChanged := true, pc := s.pc + 2#16 })

/-- R102: 00EE and no other opcode is RET; it pops the entry at SP - 1 into PC as it is and keeps the entry; with SP = 0 it
faults. -/
def Obligations.ReturnPopsStack : Prop :=
  (∀ op : Word, decode op = some .ret ↔ op = 0x00EE#16) ∧
  (∀ s : State, s.sp.val = 0 → exec .ret s = .fault (.stackUnderflow s.pc)) ∧
  (∀ (s : State) (k : Fin 16), s.sp.val = k.val + 1 →
    exec .ret s = .next { s with pc := s.stack[k.val], sp := k.castSucc })

/-- R103: 1NNN sets PC to NNN; a jump to its own address leaves the state unchanged. -/
def Obligations.JumpSetsPc : Prop :=
  (∀ op : Word, op &&& 0xF000#16 = 0x1000#16 → decode op = some (.jp (opNNN op))) ∧
  (∀ (s : State) (nnn : BitVec 12), exec (.jp nnn) s = .next { s with pc := BitVec.ofNat 16 nnn.toNat }) ∧
  (∀ (s : State) (nnn : BitVec 12), s.pc.toNat = nnn.toNat → exec (.jp nnn) s = .next s)

/-- R104: 2NNN pushes (PC + 2) mod 2^16 at Stack[SP] and jumps to NNN; with SP = 16 it faults. -/
def Obligations.CallPushesReturnAddress : Prop :=
  (∀ op : Word, op &&& 0xF000#16 = 0x2000#16 → decode op = some (.call (opNNN op))) ∧
  (∀ (s : State) (nnn : BitVec 12), s.sp.val = 16 → exec (.call nnn) s = .fault (.stackOverflow s.pc)) ∧
  (∀ (s : State) (nnn : BitVec 12) (k : Fin 16), s.sp.val = k.val →
    exec (.call nnn) s = .next { s with
      stack := s.stack.set k.val (BitVec.ofNat 16 ((s.pc.toNat + 2) % 65536))
      sp := k.succ
      pc := BitVec.ofNat 16 nnn.toNat })

/-- R105: BNNN sets PC to NNN + V0, at most 0x10FE and not masked to 12 bits. -/
def Obligations.JumpAddsV0 : Prop :=
  (∀ op : Word, op &&& 0xF000#16 = 0xB000#16 → decode op = some (.jpV0 (opNNN op))) ∧
  (∀ (s : State) (nnn : BitVec 12), ∃ target : Word,
    target.toNat = nnn.toNat + (s.getV 0).toNat ∧ target.toNat ≤ 0x10FE ∧
    exec (.jpV0 nnn) s = .next { s with pc := target })

/-! ### Skips -/

/-- R120 to R124: 3XNN, 4XNN, 5XY0 and 9XY0 set PC to PC + 4 when their condition holds and to PC + 2 when not, and change
nothing else. The sums modulo 2^16 are the spec's decision D10, the fixed digit of 5XY0 and 9XY0 its decision D3 (log 12). -/
def Obligations.SkipOnCompare : Prop :=
  (∀ op : Word, op &&& 0xF000#16 = 0x3000#16 → decode op = some (.seImm (opX op) (opNN op))) ∧
  (∀ op : Word, op &&& 0xF000#16 = 0x4000#16 → decode op = some (.sneImm (opX op) (opNN op))) ∧
  (∀ op : Word, op &&& 0xF00F#16 = 0x5000#16 → decode op = some (.seReg (opX op) (opY op))) ∧
  (∀ op : Word, op &&& 0xF00F#16 = 0x9000#16 → decode op = some (.sneReg (opX op) (opY op))) ∧
  (∀ (s : State) (x : Reg) (nn : Byte), exec (.seImm x nn) s = .next { s with
    pc := BitVec.ofNat 16 (s.pc.toNat + if (s.getV x).toNat = nn.toNat then 4 else 2) }) ∧
  (∀ (s : State) (x : Reg) (nn : Byte), exec (.sneImm x nn) s = .next { s with
    pc := BitVec.ofNat 16 (s.pc.toNat + if (s.getV x).toNat = nn.toNat then 2 else 4) }) ∧
  (∀ (s : State) (x y : Reg), exec (.seReg x y) s = .next { s with
    pc := BitVec.ofNat 16 (s.pc.toNat + if (s.getV x).toNat = (s.getV y).toNat then 4 else 2) }) ∧
  (∀ (s : State) (x y : Reg), exec (.sneReg x y) s = .next { s with
    pc := BitVec.ofNat 16 (s.pc.toNat + if (s.getV x).toNat = (s.getV y).toNat then 2 else 4) })

/-- R125, R126, R327: EX9E skips when VX is 0..15 and that key is down, EXA1 in every other case; VX is not masked. -/
def Obligations.SkipOnKey : Prop :=
  (∀ op : Word, op &&& 0xF0FF#16 = 0xE09E#16 → decode op = some (.skp (opX op))) ∧
  (∀ op : Word, op &&& 0xF0FF#16 = 0xE0A1#16 → decode op = some (.sknp (opX op))) ∧
  (∀ (s : State) (x : Reg) (k : Fin 16), (s.getV x).toNat = k.val → s.keys[k.val] = true →
    exec (.skp x) s = .next { s with pc := s.pc + 4#16 } ∧ exec (.sknp x) s = .next { s with pc := s.pc + 2#16 }) ∧
  (∀ (s : State) (x : Reg), (∀ k : Fin 16, (s.getV x).toNat = k.val → s.keys[k.val] = false) →
    exec (.skp x) s = .next { s with pc := s.pc + 2#16 } ∧ exec (.sknp x) s = .next { s with pc := s.pc + 4#16 })

/-! ### Register load and arithmetic -/

/-- R140, R142: 6XNN writes NN and 8XY0 writes V[Y] to V[X], VF too when X = 0xF; nothing else changes but PC + 2. -/
def Obligations.LoadAndCopyRegister : Prop :=
  (∀ op : Word, op &&& 0xF000#16 = 0x6000#16 → decode op = some (.ldImm (opX op) (opNN op))) ∧
  (∀ op : Word, op &&& 0xF00F#16 = 0x8000#16 → decode op = some (.ldReg (opX op) (opY op))) ∧
  (∀ (s : State) (x : Reg) (nn : Byte),
    exec (.ldImm x nn) s = .next { s with v := s.v.set x.val nn, pc := s.pc + 2#16 }) ∧
  (∀ (s : State) (x y : Reg),
    exec (.ldReg x y) s = .next { s with v := s.v.set x.val (s.getV y), pc := s.pc + 2#16 })

/-- R141: 7XNN writes (V[X] + NN) mod 256 to V[X]; VF is not written as a carry. -/
def Obligations.AddImmediate : Prop :=
  (∀ op : Word, op &&& 0xF000#16 = 0x7000#16 → decode op = some (.addImm (opX op) (opNN op))) ∧
  (∀ (s : State) (x : Reg) (nn : Byte), ∃ r : Byte, r.toNat = ((s.getV x).toNat + nn.toNat) % 256 ∧
    exec (.addImm x nn) s = .next { s with v := s.v.set x.val r, pc := s.pc + 2#16 })

/-- R143 to R145: 8XY1, 8XY2 and 8XY3 write the bitwise OR, AND and XOR, each bit of the result from the same bits of VX and
VY; VF is not reset. -/
def Obligations.BitwiseRegister : Prop :=
  (∀ op : Word, op &&& 0xF00F#16 = 0x8001#16 → decode op = some (.orReg (opX op) (opY op))) ∧
  (∀ op : Word, op &&& 0xF00F#16 = 0x8002#16 → decode op = some (.andReg (opX op) (opY op))) ∧
  (∀ op : Word, op &&& 0xF00F#16 = 0x8003#16 → decode op = some (.xorReg (opX op) (opY op))) ∧
  (∀ (s : State) (x y : Reg), ∃ r : Byte,
    (∀ k < 8, r.getLsbD k = ((s.getV x).getLsbD k || (s.getV y).getLsbD k)) ∧
    exec (.orReg x y) s = .next { s with v := s.v.set x.val r, pc := s.pc + 2#16 }) ∧
  (∀ (s : State) (x y : Reg), ∃ r : Byte,
    (∀ k < 8, r.getLsbD k = ((s.getV x).getLsbD k && (s.getV y).getLsbD k)) ∧
    exec (.andReg x y) s = .next { s with v := s.v.set x.val r, pc := s.pc + 2#16 }) ∧
  (∀ (s : State) (x y : Reg), ∃ r : Byte,
    (∀ k < 8, r.getLsbD k = ((s.getV x).getLsbD k ^^ (s.getV y).getLsbD k)) ∧
    exec (.xorReg x y) s = .next { s with v := s.v.set x.val r, pc := s.pc + 2#16 })

/-- R146: 8XY4 writes the sum modulo 256 to V[X] and then the carry to VF, so with X = 0xF the carry stays. -/
def Obligations.AddWithCarry : Prop :=
  (∀ op : Word, op &&& 0xF00F#16 = 0x8004#16 → decode op = some (.addReg (opX op) (opY op))) ∧
  (∀ (s : State) (x y : Reg), ∃ r : Byte, r.toNat = ((s.getV x).toNat + (s.getV y).toNat) % 256 ∧
    exec (.addReg x y) s = .next { s with
      v := (s.v.set x.val r).set 15 (if 255 < (s.getV x).toNat + (s.getV y).toNat then 1#8 else 0#8)
      pc := s.pc + 2#16 })

/-- R147, R149: 8XY5 writes VX - VY and 8XY7 writes VY - VX, modulo 256, and then VF is 1 when the minuend is at least the
subtrahend and 0 when not. -/
def Obligations.SubtractWithNoBorrow : Prop :=
  (∀ op : Word, op &&& 0xF00F#16 = 0x8005#16 → decode op = some (.sub (opX op) (opY op))) ∧
  (∀ op : Word, op &&& 0xF00F#16 = 0x8007#16 → decode op = some (.subn (opX op) (opY op))) ∧
  (∀ (s : State) (x y : Reg), ∃ r : Byte,
    (r.toNat : Int) = ((s.getV x).toNat - (s.getV y).toNat : Int) % 256 ∧
    exec (.sub x y) s = .next { s with
      v := (s.v.set x.val r).set 15 (if (s.getV y).toNat ≤ (s.getV x).toNat then 1#8 else 0#8)
      pc := s.pc + 2#16 }) ∧
  (∀ (s : State) (x y : Reg), ∃ r : Byte,
    (r.toNat : Int) = ((s.getV y).toNat - (s.getV x).toNat : Int) % 256 ∧
    exec (.subn x y) s = .next { s with
      v := (s.v.set x.val r).set 15 (if (s.getV x).toNat ≤ (s.getV y).toNat then 1#8 else 0#8)
      pc := s.pc + 2#16 })

/-- R148, R150: 8XY6 and 8XYE shift the source by one bit, filling with 0, and then VF is the bit shifted out; the source is
VX under P_SHIFT_SOURCE = VX and VY under P_SHIFT_SOURCE = VY. -/
def Obligations.ShiftByOne : Prop :=
  (∀ op : Word, op &&& 0xF00F#16 = 0x8006#16 → decode op = some (.shr (opX op) (opY op))) ∧
  (∀ op : Word, op &&& 0xF00F#16 = 0x800E#16 → decode op = some (.shl (opX op) (opY op))) ∧
  (∀ (s : State) (x y : Reg) (src : Byte),
    src = (if s.params.shiftSource = .vx then s.getV x else s.getV y) →
    (∃ r : Byte, r.toNat = src.toNat / 2 ∧
      exec (.shr x y) s = .next { s with
        v := (s.v.set x.val r).set 15 (BitVec.ofNat 8 (src.toNat % 2))
        pc := s.pc + 2#16 }) ∧
    (∃ r : Byte, r.toNat = src.toNat * 2 % 256 ∧
      exec (.shl x y) s = .next { s with
        v := (s.v.set x.val r).set 15 (BitVec.ofNat 8 (src.toNat / 128))
        pc := s.pc + 2#16 }))

/-! ### Index, random and draw -/

/-- R170, R203, R204: ANNN sets I to NNN, FX1E to (I + VX) mod 2^16, FX29 to 5 * VX; VF and everything else but PC is
unchanged. -/
def Obligations.IndexWrites : Prop :=
  (∀ op : Word, op &&& 0xF000#16 = 0xA000#16 → decode op = some (.ldI (opNNN op))) ∧
  (∀ op : Word, op &&& 0xF0FF#16 = 0xF01E#16 → decode op = some (.addIVx (opX op))) ∧
  (∀ op : Word, op &&& 0xF0FF#16 = 0xF029#16 → decode op = some (.ldFVx (opX op))) ∧
  (∀ (s : State) (nnn : BitVec 12), ∃ w : Word, w.toNat = nnn.toNat ∧
    exec (.ldI nnn) s = .next { s with i := w, pc := s.pc + 2#16 }) ∧
  (∀ (s : State) (x : Reg), ∃ w : Word, w.toNat = (s.i.toNat + (s.getV x).toNat) % 65536 ∧
    exec (.addIVx x) s = .next { s with i := w, pc := s.pc + 2#16 }) ∧
  (∀ (s : State) (x : Reg), ∃ w : Word, w.toNat = 5 * (s.getV x).toNat ∧
    exec (.ldFVx x) s = .next { s with i := w, pc := s.pc + 2#16 })

/-- R171, R40, R335: CXNN writes rand AND NN, for every byte rand; no bit outside NN is ever set; with the byte left open it is
the free draw (log 1). A STEP that runs another instruction ignores rand. `draws` is the model's own counter (log 1). -/
def Obligations.RandomMasked : Prop :=
  (∀ op : Word, op &&& 0xF000#16 = 0xC000#16 → decode op = some (.rnd (opX op) (opNN op))) ∧
  (∀ (rand : Byte) (s : State) (x : Reg) (nn : Byte), ∃ r : Byte,
    (∀ k < 8, r.getLsbD k = (rand.getLsbD k && nn.getLsbD k)) ∧
    execWith rand (.rnd x nn) s = .next { s with v := s.v.set x.val r, pc := s.pc + 2#16, draws := s.draws + 1 }) ∧
  (∀ (s : State) (x : Reg) (nn : Byte), ∃ r : Byte, r &&& ~~~nn = 0#8 ∧
    exec (.rnd x nn) s = .next { s with v := s.v.set x.val r, pc := s.pc + 2#16, draws := s.draws + 1 }) ∧
  (∀ (s : State) (x : Reg) (nn : Byte), exec (.rnd x nn) s = execWith (Config.freeDraw s.draws) (.rnd x nn) s) ∧
  (∀ (rand : Byte) (s : State) (i : Instr), (∀ x nn, i ≠ .rnd x nn) → execWith rand i s = exec i s)

/-- R172 to R175: DXYN toggles exactly the pixels a 1 bit of the sprite falls on, both coordinates wrapping, VF ends as 1 when
one of them was lit and 0 when none was, and dispChanged is set; past 0xFFF it faults. N = 0 reads nothing. -/
def Obligations.DrawSpritePixels : Prop :=
  (∀ op : Word, op &&& 0xF000#16 = 0xD000#16 → decode op = some (.drw (opX op) (opY op) (opN op))) ∧
  (∀ (s : State) (x y : Reg) (n : BitVec 4), 0 < n.toNat → 0xFFF < s.i.toNat + n.toNat - 1 →
    exec (.drw x y n) s = .fault (.addressOutOfRange (max s.i.toNat 0x1000))) ∧
  (∀ (s : State) (x y : Reg) (n : BitVec 4), n.toNat = 0 ∨ s.i.toNat + n.toNat - 1 ≤ 0xFFF →
    ∃ (d : Grid) (flag : Byte),
      exec (.drw x y n) s = .next { s with
        disp := d, dispChanged := true, v := s.v.set 15 flag, pc := s.pc + 2#16 } ∧
      (∀ px < 64, ∀ py < 32, SpriteCovers s x y n px py → getPixel d px py = !getPixel s.disp px py) ∧
      (∀ px < 64, ∀ py < 32, ¬ SpriteCovers s x y n px py → getPixel d px py = getPixel s.disp px py) ∧
      ((∃ px < 64, ∃ py < 32, SpriteCovers s x y n px py ∧ getPixel s.disp px py = true) → flag = 1#8) ∧
      ((¬ ∃ px < 64, ∃ py < 32, SpriteCovers s x y n px py ∧ getPixel s.disp px py = true) → flag = 0#8))

/-- Drawing the same sprite at the same place twice restores the grid, and the second draw sets VF = 1 exactly when a 1 bit of
the sprite falls on a pixel that was unlit before the first draw. "The same place" is a premise because with X = 0xF or Y = 0xF
the first draw's flag moves the second start point (R172). The statement follows from R172's pseudocode and R175; R172's corner
case and 90_conflicts.md C5 say "if and only if the sprite has at least one 1 bit", which those rules contradict where every
pixel the sprite touches was lit (log 16). -/
def Obligations.DrawTwiceRestores : Prop :=
  ∀ (s t : State) (x y : Reg) (n : BitVec 4), exec (.drw x y n) s = .next t →
    (t.getV x).toNat % 64 = (s.getV x).toNat % 64 → (t.getV y).toNat % 32 = (s.getV y).toNat % 32 →
    ∃ u, exec (.drw x y n) t = .next u ∧ u.disp = s.disp ∧
      ((∃ px < 64, ∃ py < 32, SpriteCovers s x y n px py ∧ getPixel s.disp px py = false) → u.getV 15 = 1#8) ∧
      ((¬ ∃ px < 64, ∃ py < 32, SpriteCovers s x y n px py ∧ getPixel s.disp px py = false) → u.getV 15 = 0#8)

/-! ### Timers, memory blocks, key wait -/

/-- R200 to R202: FX07 reads DT into VX, FX15 and FX18 set DT and ST to VX. That FX18 does no more (no sound output) is the
spec's decision D28. -/
def Obligations.TimerMoves : Prop :=
  (∀ op : Word, op &&& 0xF0FF#16 = 0xF007#16 → decode op = some (.ldVxDt (opX op))) ∧
  (∀ op : Word, op &&& 0xF0FF#16 = 0xF015#16 → decode op = some (.ldDtVx (opX op))) ∧
  (∀ op : Word, op &&& 0xF0FF#16 = 0xF018#16 → decode op = some (.ldStVx (opX op))) ∧
  (∀ (s : State) (x : Reg),
    exec (.ldVxDt x) s = .next { s with v := s.v.set x.val s.dt, pc := s.pc + 2#16 }) ∧
  (∀ (s : State) (x : Reg), exec (.ldDtVx x) s = .next { s with dt := s.getV x, pc := s.pc + 2#16 }) ∧
  (∀ (s : State) (x : Reg), exec (.ldStVx x) s = .next { s with st := s.getV x, pc := s.pc + 2#16 })

/-- R205: FX33 stores the hundreds, tens and ones of VX at I, I + 1, I + 2; every other byte, I and every register stays; past
0xFFF it faults. -/
def Obligations.StoreDecimalDigits : Prop :=
  (∀ op : Word, op &&& 0xF0FF#16 = 0xF033#16 → decode op = some (.ldBVx (opX op))) ∧
  (∀ (s : State) (x : Reg), 0xFFF < s.i.toNat + 2 →
    exec (.ldBVx x) s = .fault (.addressOutOfRange (max s.i.toNat 0x1000))) ∧
  (∀ (s : State) (x : Reg), s.i.toNat + 2 ≤ 0xFFF → ∃ t : State,
    exec (.ldBVx x) s = .next t ∧ t = { s with ram := t.ram, pc := s.pc + 2#16 } ∧
    (t.byteAt s.i.toNat).toNat = (s.getV x).toNat / 100 ∧
    (t.byteAt (s.i.toNat + 1)).toNat = (s.getV x).toNat / 10 % 10 ∧
    (t.byteAt (s.i.toNat + 2)).toNat = (s.getV x).toNat % 10 ∧
    (∀ a, a < s.i.toNat ∨ s.i.toNat + 2 < a → t.byteAt a = s.byteAt a))

/-- R206: FX55 stores V0..VX at I..I+X; every other byte, I and every register stays; past 0xFFF it faults. -/
def Obligations.StoreRegisterBlock : Prop :=
  (∀ op : Word, op &&& 0xF0FF#16 = 0xF055#16 → decode op = some (.ldMemVx (opX op))) ∧
  (∀ (s : State) (x : Reg), 0xFFF < s.i.toNat + x.val →
    exec (.ldMemVx x) s = .fault (.addressOutOfRange (max s.i.toNat 0x1000))) ∧
  (∀ (s : State) (x : Reg), s.i.toNat + x.val ≤ 0xFFF → ∃ t : State,
    exec (.ldMemVx x) s = .next t ∧ t = { s with ram := t.ram, pc := s.pc + 2#16 } ∧
    (∀ k : Reg, k.val ≤ x.val → t.byteAt (s.i.toNat + k.val) = s.getV k) ∧
    (∀ a, a < s.i.toNat ∨ s.i.toNat + x.val < a → t.byteAt a = s.byteAt a))

/-- R207: FX65 loads I..I+X into V0..VX; the registers above VX, I and all of RAM stay; past 0xFFF it faults. -/
def Obligations.LoadRegisterBlock : Prop :=
  (∀ op : Word, op &&& 0xF0FF#16 = 0xF065#16 → decode op = some (.ldVxMem (opX op))) ∧
  (∀ (s : State) (x : Reg), 0xFFF < s.i.toNat + x.val →
    exec (.ldVxMem x) s = .fault (.addressOutOfRange (max s.i.toNat 0x1000))) ∧
  (∀ (s : State) (x : Reg), s.i.toNat + x.val ≤ 0xFFF → ∃ t : State,
    exec (.ldVxMem x) s = .next t ∧ t = { s with v := t.v, pc := s.pc + 2#16 } ∧
    (∀ k : Reg, k.val ≤ x.val → t.getV k = s.byteAt (s.i.toNat + k.val)) ∧
    (∀ k : Reg, x.val < k.val → t.getV k = s.getV k))

/-- R207's corner case: after an FX55, whatever the registers have become, an FX65 with the same X and I brings V0..VX back
exactly; the registers above VX, I and RAM stay. -/
def Obligations.StoreLoadRoundTrip : Prop :=
  ∀ (s : State) (x : Reg), s.i.toNat + x.val ≤ 0xFFF → ∃ t : State, exec (.ldMemVx x) s = .next t ∧
    ∀ w : Vector Byte 16, ∃ u : State, exec (.ldVxMem x) { t with v := w } = .next u ∧
      (∀ k : Reg, k.val ≤ x.val → u.getV k = s.getV k) ∧ (∀ k : Reg, x.val < k.val → u.getV k = w[k.val]) ∧
      u.i = s.i ∧ u.ram = t.ram

/-- R230: FX0A stores the lowest key that is down into VX and goes on; with no key down it changes nothing at all. -/
def Obligations.KeyWaitTakesLowest : Prop :=
  (∀ op : Word, op &&& 0xF0FF#16 = 0xF00A#16 → decode op = some (.ldVxK (opX op))) ∧
  (∀ (s : State) (x : Reg), (∀ k : Fin 16, s.keys[k.val] = false) → exec (.ldVxK x) s = .next s) ∧
  (∀ (s : State) (x : Reg) (k : Fin 16), s.keys[k.val] = true → (∀ j : Fin 16, j < k → s.keys[j.val] = false) →
    exec (.ldVxK x) s = .next { s with v := s.v.set x.val (BitVec.ofNat 8 k.val), pc := s.pc + 2#16 })

/-! ### Frames, for every instruction -/

/-- R22, R23: an instruction leaves every V register unchanged but its destination VX, VF where it writes the flag, and the
block V0..VX of FX65. -/
def Obligations.RegisterFrame : Prop :=
  ∀ (i : Instr) (s t : State) (r : Reg), exec i s = .next t → mayWriteReg i r = false → t.getV r = s.getV r

/-- R56, R57: an instruction leaves every byte of RAM unchanged but the bytes it stores, FX33's three and FX55's X + 1 from
address I up. -/
def Obligations.MemoryFrame : Prop :=
  ∀ (i : Instr) (s t : State), exec i s = .next t →
    (∀ a, indexAddress s = a → ∀ b, (b < a ∨ a + storeCount i ≤ b) → t.byteAt b = s.byteAt b) ∧
    (storeCount i = 0 → ∀ b, t.byteAt b = s.byteAt b)

/-- R24, R27 to R30: only ANNN, FX1E and FX29 change I; only 2NNN changes a stack entry, and only the one at SP; only 2NNN and
00EE change SP; only FX15 changes DT; only FX18 changes ST. That 00EE keeps the entry it pops is the spec's decision D8
(log 12). -/
def Obligations.ControlStateFrame : Prop :=
  ∀ (i : Instr) (s t : State), exec i s = .next t →
    ((∀ nnn, i ≠ .ldI nnn) → (∀ x, i ≠ .addIVx x) → (∀ x, i ≠ .ldFVx x) → t.i = s.i) ∧
    (∀ k : Fin 16, (∀ nnn, i = .call nnn → s.sp.val ≠ k.val) → t.stack[k.val] = s.stack[k.val]) ∧
    ((∀ nnn, i ≠ .call nnn) → i ≠ .ret → t.sp = s.sp) ∧
    ((∀ x, i ≠ .ldDtVx x) → t.dt = s.dt) ∧
    ((∀ x, i ≠ .ldStVx x) → t.st = s.st)

/-- R35, R36, R38: only 00E0 and DXYN change the grid and dispChanged, and both leave dispChanged set; no instruction changes a
key. When dispChanged is set is the spec's decision D20 (log 12). Only CXNN moves the model's draw counter (log 1); no
instruction changes the parameters (log 3). -/
def Obligations.DisplayAndInputFrame : Prop :=
  ∀ (i : Instr) (s t : State), exec i s = .next t →
    (i ≠ .cls → (∀ x y n, i ≠ .drw x y n) → t.disp = s.disp ∧ t.dispChanged = s.dispChanged) ∧
    (i = .cls ∨ (∃ x y n, i = .drw x y n) → t.dispChanged = true) ∧
    t.keys = s.keys ∧ ((∀ x nn, i ≠ .rnd x nn) → t.draws = s.draws) ∧ t.params = s.params

/-- R25: an instruction that is no transfer sets PC to PC + 2, or a skip to PC + 4, modulo 2^16; FX0A with no key down changes
nothing. The sums modulo 2^16, with no masking to 12 bits, are the spec's decision D10 (log 12). -/
def Obligations.ProgramCounterAdvances : Prop :=
  ∀ (i : Instr) (s t : State), exec i s = .next t → isTransfer i = false →
    t.pc.toNat = (s.pc.toNat + 2) % 65536 ∨
    (isSkip i = true ∧ t.pc.toNat = (s.pc.toNat + 4) % 65536) ∨
    ((∃ x, i = .ldVxK x) ∧ (∀ k : Fin 16, s.keys[k.val] = false) ∧ t = s)

/-! ### What instructions cannot see -/

/-- R36: EX9E, EXA1 and FX0A are the only readers of the keys: any other instruction does the same whatever the key levels
are. -/
def Obligations.KeysReadByThree : Prop :=
  ∀ (i : Instr) (s : State) (k : Vector Bool 16), readsKeys i = false →
    exec i { s with keys := k } = mapNext (fun t => { t with keys := k }) (exec i s)

/-- R30, R38: no instruction reads ST or dispChanged: with another ST and another dispChanged each does the same to every other
piece of state, and answers the same fault. -/
def Obligations.OutputsUnread : Prop :=
  ∀ (i : Instr) (s : State) (b : Byte) (c : Bool),
    mapNext (fun t => { t with st := 0#8, dispChanged := false }) (exec i { s with st := b, dispChanged := c }) =
    mapNext (fun t => { t with st := 0#8, dispChanged := false }) (exec i s)

/-! ### Memory -/

/-- R55: a read or write of n bytes at a faults when n > 0 and its last address is above 0xFFF, naming the lowest address above
0xFFF, and otherwise succeeds; a read gives the bytes at a, a + 1, ... -/
def Obligations.RangeCheckedAccess : Prop :=
  (∀ (s : State) (a n : Nat), 0 < n → 0xFFF < a + n - 1 →
    memRead s a n = .error (.addressOutOfRange (max a 0x1000)) ∧
    ∀ bytes : List Byte, bytes.length = n → memWrite s a bytes = .error (.addressOutOfRange (max a 0x1000))) ∧
  (∀ a n : Nat, 0 < n → 0xFFF < a + n - 1 →
    a ≤ max a 0x1000 ∧ max a 0x1000 ≤ a + n - 1 ∧ 0xFFF < max a 0x1000 ∧
    ∀ b, a ≤ b → b ≤ a + n - 1 → 0xFFF < b → max a 0x1000 ≤ b) ∧
  (∀ (s : State) (a n : Nat), n = 0 ∨ a + n - 1 ≤ 0xFFF →
    (∃ bytes, memRead s a n = .ok bytes ∧ bytes.length = n ∧ ∀ k < n, bytes[k]? = some (s.byteAt (a + k))) ∧
    ∀ bytes : List Byte, bytes.length = n → ∃ t, memWrite s a bytes = .ok t)

/-- R57, R52: a write changes exactly the bytes it writes: they read back as written, every other byte as before, and no other
state changes. No address of RAM is exempt, the font table included. -/
def Obligations.WriteChangesItsBytes : Prop :=
  ∀ (s t : State) (a : Nat) (bytes : List Byte), memWrite s a bytes = .ok t →
    t = { s with ram := t.ram } ∧
    (∀ k b, bytes[k]? = some b → t.byteAt (a + k) = b) ∧
    (∀ b, (b < a ∨ a + bytes.length ≤ b) → t.byteAt b = s.byteAt b)

/-- R61, R421: the fetch after an FX55 reads the bytes just stored, so an instruction it overwrote runs as its new bytes. -/
def Obligations.StoreSeenByNextFetch : Prop :=
  ∀ (s t : State) (x j k : Reg), exec (.ldMemVx x) s = .next t → j.val ≤ x.val → k.val = j.val + 1 → k.val ≤ x.val →
    t.pc.toNat = s.i.toNat + j.val → fetch t = .ok (opcodeOf (s.getV j) (s.getV k))

/-! ### The invariant -/

/-- The power-on memory is in canonical form, with any parameters (R41; the form is the model's, log 6). -/
def Obligations.CanonicalMemoryAtReset : Prop :=
  State.reset.Inv ∧ ∀ p : Params, (State.powerOn p).Inv

/-- Every step keeps memory canonical and within 4096 bytes (R50; the form is the model's, log 6). -/
def Obligations.CanonicalMemoryKeptByStep : Prop :=
  ∀ s t : State, s.Inv → step s = .next t → t.Inv

/-- Every sequence of host commands keeps memory canonical and within 4096 bytes, whatever the host loads, imports and draws
(R50, R340; the form is the model's, log 6). -/
def Obligations.CanonicalMemoryKeptByCommands : Prop :=
  ∀ (cs : List Command) (s : State), s.Inv → (performAll cs s).1.Inv

/-! ### Host commands -/

/-- R320: TICK takes each timer down by one with a floor of 0, answers OK, and changes nothing else. -/
def Obligations.TickCountsDown : Prop :=
  ∀ s : State, ∃ d e : Byte,
    (d.toNat = if 0 < s.dt.toNat then s.dt.toNat - 1 else 0) ∧
    (e.toNat = if 0 < s.st.toNat then s.st.toNat - 1 else 0) ∧
    perform .tick s = ({ s with dt := d, st := e }, .ok)

/-- R325, R326: KEY_DOWN(k) and KEY_UP(k) set key k's level for k <= 15, have no effect for any other k, never fault and change
nothing else. -/
def Obligations.KeyEventsSetLevels : Prop :=
  (∀ (s : State) (k : Fin 16),
    perform (.keyDown k.val) s = ({ s with keys := s.keys.set k.val true }, .ok) ∧
    perform (.keyUp k.val) s = ({ s with keys := s.keys.set k.val false }, .ok)) ∧
  (∀ (s : State) (k : Nat), 15 < k → perform (.keyDown k) s = (s, .ok) ∧ perform (.keyUp k) s = (s, .ok))

/-- R232: a press is not latched: KEY_DOWN(k) and KEY_UP(k) of a key that was up, delivered between two STEPs, leave the state
as it was. -/
def Obligations.PressIsNotLatched : Prop :=
  ∀ (s : State) (k : Fin 16), s.keys[k.val] = false →
    performAll [.keyDown k.val, .keyUp k.val] s = (s, [.ok, .ok])

/-- R402, R403, R405: LOAD of more than 3584 bytes is LoadError(L) and changes nothing; otherwise RAM is P_FONT, zeros and byte j
of the program at 0x200 + j, and every register, the stack, the timers, the display, the keys and dispChanged are as R403 says.
The last conjunct is about the model's own fields (log 3, log 15). -/
def Obligations.LoadReplacesState : Prop :=
  (∀ (bytes : List Byte) (s : State), 3584 < bytes.length →
    perform (.load bytes) s = (s, .fault (.loadError bytes.length))) ∧
  (∀ (bytes : List Byte) (s : State), bytes.length ≤ 3584 → ∃ t, perform (.load bytes) s = (t, .ok) ∧
    (∀ (a : Nat) (h : a < 80), t.byteAt a = s.params.font[a]) ∧
    (∀ (j : Nat) (b : Byte), bytes[j]? = some b → t.byteAt (0x200 + j) = b) ∧
    (∀ a, 80 ≤ a → (a < 0x200 ∨ 0x200 + bytes.length ≤ a) → t.byteAt a = 0#8) ∧
    (∀ r : Reg, t.getV r = 0#8) ∧ t.i = 0#16 ∧ t.pc = 0x200#16 ∧
    (∀ k : Fin 16, t.stack[k.val] = 0#16) ∧ t.sp = 0 ∧ t.dt = 0#8 ∧ t.st = 0#8 ∧
    (∀ x y, getPixel t.disp x y = false) ∧ (∀ k : Fin 16, t.keys[k.val] = false) ∧ t.dispChanged = true ∧
    t.params = s.params ∧ t.draws = s.draws)

/-- R400, R410: a LOAD of zero bytes gives the power-on state (but for the model's draw counter, log 15), and a STEP of the
power-on state, with any font and any random byte, faults InvalidOpcode(0x0000). -/
def Obligations.PowerOnIsEmptyLoad : Prop :=
  (∀ s : State, perform (.load []) s = ({ State.powerOn s.params with draws := s.draws }, .ok)) ∧
  (∀ p : Params, step (State.powerOn p) = .fault (.invalidOpcode 0#16)) ∧
  (∀ (p : Params) (rand : Byte),
    perform (.step rand) (State.powerOn p) = (State.powerOn p, .fault (.invalidOpcode 0#16))) ∧
  State.reset.params.shiftSource = .vx

/-- R408: IMPORT accepts exactly the records that pass every check, and answers StateImportError for any other (R304). -/
def Obligations.ImportChecksRecord : Prop :=
  (∀ (r : StateRecord) (s : State), RecordWellFormed r → ∃ t, perform (.importState r) s = (t, .ok)) ∧
  (∀ (r : StateRecord) (s : State), ¬ RecordWellFormed r →
    perform (.importState r) s = (s, .fault .stateImportError))

/-- R407: a successful IMPORT gives a state whose EXPORT is the imported record, with dispChanged set and Keys kept; and
`IMPORT(EXPORT(q))` gives q back but for dispChanged. The parameters and the draw counter are the model's own (log 3, log 15). -/
def Obligations.ExportImportRoundTrip : Prop :=
  (∀ (r : StateRecord) (s t : State), importState r s = .next t →
    exportRecord t = r ∧ t.dispChanged = true ∧ t.keys = s.keys ∧ t.params = s.params ∧ t.draws = s.draws) ∧
  (∀ s : State, s.Inv →
    performAll [.exportState, .importState (exportRecord s)] s =
      ({ s with dispChanged := true }, [.record (exportRecord s), .ok]))

/-- R11, R80, R300, R305, R344: a command that faults leaves every piece of state as it was; the STEP command commits the next
state and answers OK, or answers its fault with the state kept; STEP raises only the codes 1 to 4, LOAD only 5, IMPORT only 6,
and the other commands never fault. No command is ever refused, and none changes the parameters (log 3). -/
def Obligations.FaultLeavesState : Prop :=
  (∀ (c : Command) (s : State),
    (∀ f, (perform c s).2 = .fault f → (perform c s).1 = s ∧
      ((∃ rand, c = .step rand) ∧ 1 ≤ faultCode f ∧ faultCode f ≤ 4 ∨
       (∃ bytes, c = .load bytes) ∧ faultCode f = 5 ∨
       (∃ r, c = .importState r) ∧ faultCode f = 6)) ∧
    (∀ r, (perform c s).2 ≠ .refused r) ∧ (perform c s).1.params = s.params) ∧
  (∀ (rand : Byte) (s t : State), stepWith rand s = .next t → perform (.step rand) s = (t, .ok)) ∧
  (∀ (rand : Byte) (s : State) (f : Fault), stepWith rand s = .fault f → perform (.step rand) s = (s, .fault f))

/-- R309: after a faulted STEP, whatever STEPs, TICKs, key events, DISPLAY_READs and EXPORTs follow, with whatever random bytes,
every STEP raises the same fault with the same info: only a LOAD or an IMPORT can end it. -/
def Obligations.FaultRepeats : Prop :=
  ∀ (s : State) (rand : Byte) (f : Fault), stepWith rand s = .fault f →
    ∀ cs : List Command, (∀ c ∈ cs, replacesState c = false) →
      ∀ rand', perform (.step rand') (performAll cs s).1 = ((performAll cs s).1, .fault f)

/-- R411: at a self-jump every STEP leaves the state unchanged, and after any STEPs, TICKs, key events, DISPLAY_READs and EXPORTs
the machine is at the same self-jump with RAM, V, I, SP, Stack and Disp as they were. The timers do not stop there: under a host
whose TICKs keep coming (R424) both reach 0 and stay 0. -/
def Obligations.SelfJumpEndsRun : Prop :=
  ∀ s : State, atSelfJump s = true →
    step s = .next s ∧ (∀ rand, stepWith rand s = .next s) ∧
    (∀ cs : List Command, (∀ c ∈ cs, replacesState c = false) →
      ∃ t, (performAll cs s).1 = t ∧ atSelfJump t = true ∧
        t = { s with dt := t.dt, st := t.st, keys := t.keys, dispChanged := t.dispChanged }) ∧
    (∀ sched : Schedule, (∀ n, replacesState (sched n) = false) → TicksRecur sched →
      ∃ n, ∀ m, n ≤ m → (stateBefore sched s m).dt = 0#8 ∧ (stateBefore sched s m).st = 0#8)

/-- R39: awaitingKey is true exactly when PC <= 0xFFE, the opcode at PC decodes as FX0A and no key is down; and then a step
changes nothing. R424, R231: whatever the host issues but LOAD and IMPORT, the wait ends (PC moves) if and only if the host
eventually holds a key down across a STEP. -/
def Obligations.AwaitingKeyOutput : Prop :=
  (∀ s : State, awaitingKey s = true ↔
    s.pc.toNat ≤ 0xFFE ∧
    (∃ x, decode (opcodeOf (s.byteAt s.pc.toNat) (s.byteAt (s.pc.toNat + 1))) = some (.ldVxK x)) ∧
    ∀ k : Fin 16, s.keys[k.val] = false) ∧
  (∀ s : State, awaitingKey s = true → step s = .next s) ∧
  (∀ (s : State) (sched : Schedule), awaitingKey s = true → (∀ n, replacesState (sched n) = false) →
    ((∃ n, (stateBefore sched s n).pc ≠ s.pc) ↔ KeyEventuallyHeld sched s))

/-- R330: DISPLAY_READ returns the grid, clears dispChanged and changes nothing else; EXPORT returns the record and changes
nothing (R406). -/
def Obligations.HostReadsState : Prop :=
  ∀ s : State, perform .displayRead s = ({ s with dispChanged := false }, .grid s.disp) ∧
    ∃ r : StateRecord, perform .exportState s = (s, .record r) ∧ RecordWellFormed r ∧
      r.i = some s.i.toNat ∧ r.pc = some s.pc.toNat ∧ r.sp = some s.sp.val ∧
      r.dt = some s.dt.toNat ∧ r.st = some s.st.toNat ∧
      (∀ l, r.ram = some l → ∀ a < 4096, l[a]? = some (s.byteAt a).toNat) ∧
      (∀ l, r.v = some l → ∀ k : Reg, l[k.val]? = some (s.getV k).toNat) ∧
      (∀ l, r.stack = some l → ∀ k : Fin 16, l[k.val]? = some s.stack[k.val].toNat) ∧
      (∀ g, r.disp = some g → ∀ px < 64, ∀ py < 32,
        (g[px]?.bind fun col => col[py]?) = some (getPixel s.disp px py))

/-- R342: commands of one cycle are performed IMPORT first, then LOAD, then key events in delivery order, then TICK, then STEP,
then EXPORT and DISPLAY_READ: none is lost or doubled, and those of one kind keep their order. `l` is the order they are
performed in, the same from every state. -/
def Obligations.SameCycleOrder : Prop :=
  (∀ batch : List Command, ∃ l : List Command,
    l.Perm batch ∧ l.Pairwise (fun c d => cycleRank c ≤ cycleRank d) ∧
    (∀ rank, l.filter (fun c => cycleRank c == rank) = batch.filter (fun c => cycleRank c == rank)) ∧
    ∀ s : State, performBatch batch s = performAll l s) ∧
  (∀ (r : StateRecord) (bytes : List Byte) (k m : Nat) (b : Byte),
    cycleRank (.importState r) < cycleRank (.load bytes) ∧ cycleRank (.load bytes) < cycleRank (.keyDown k) ∧
    cycleRank (.keyDown k) = cycleRank (.keyUp m) ∧ cycleRank (.keyUp k) < cycleRank .tick ∧
    cycleRank .tick < cycleRank (.step b) ∧ cycleRank (.step b) < cycleRank .exportState ∧
    cycleRank .exportState = cycleRank .displayRead)
end

