-- ==== Sys2Proof/Laws/Memory.lean ====
section
/-! SUPPORT. Memory: reads after writes, the canonical form is kept, and canonical memories with equal reads are equal. -/

namespace Sys2Proof.Machine

variable {font : Font} {m : Memory}

/-- The canonical form from `lo` on, one cell at a time. -/
theorem Memory.wfFrom_cons {lo k : Nat} {b : Byte} :
    Memory.wfFrom font lo ((k, b) :: m) = true ↔
      lo ≤ k ∧ k < ramSize ∧ b ≠ resetByte font k ∧ Memory.wfFrom font (k + 1) m = true := by
  simp [Memory.wfFrom, and_assoc]

theorem Memory.wfFrom_mono {lo lo' : Nat} (hle : lo' ≤ lo) (h : m.wfFrom font lo = true) :
    m.wfFrom font lo' = true := by
  cases m with
  | nil => rfl
  | cons c rest =>
    obtain ⟨k, b⟩ := c
    rw [Memory.wfFrom_cons] at h ⊢
    exact ⟨by omega, h.2⟩

/-- Below its first possible cell a canonical memory reads its reset contents. -/
theorem Memory.read_below {lo a : Nat} (h : m.wfFrom font lo = true) (ha : a < lo) :
    m.read font a = resetByte font a := by
  induction m generalizing lo with
  | nil => rfl
  | cons c rest ih =>
    obtain ⟨k, b⟩ := c
    rw [Memory.wfFrom_cons] at h
    simp only [Memory.read]
    rw [if_neg (by omega)]
    exact ih h.2.2.2 (by omega)

/-! ### One byte written -/

theorem Memory.read_insert_same (a : Nat) (b : Byte) : (m.insert a b).read font a = b := by
  induction m with
  | nil => simp [Memory.insert, Memory.read]
  | cons c rest ih =>
    obtain ⟨k, d⟩ := c
    simp only [Memory.insert]
    split
    · simp [Memory.read]
    · split
      · simp [Memory.read]
      · simp [Memory.read, *]

theorem Memory.read_insert_other {a a' : Nat} (b : Byte) (h : a' ≠ a) :
    (m.insert a b).read font a' = m.read font a' := by
  induction m with
  | nil => simp [Memory.insert, Memory.read, Ne.symm h]
  | cons c rest ih =>
    obtain ⟨k, d⟩ := c
    simp only [Memory.insert]
    split
    · simp [Memory.read, Ne.symm h]
    · split
      · subst k; simp [Memory.read, Ne.symm h]
      · simp [Memory.read, ih]

theorem Memory.read_erase_other {a a' : Nat} (h : a' ≠ a) : (m.erase a).read font a' = m.read font a' := by
  induction m with
  | nil => rfl
  | cons c rest ih =>
    obtain ⟨k, d⟩ := c
    simp only [Memory.erase]
    split
    · subst k; simp [Memory.read, Ne.symm h, ih]
    · simp [Memory.read, ih]

theorem Memory.read_erase_same (a : Nat) : (m.erase a).read font a = resetByte font a := by
  induction m with
  | nil => rfl
  | cons c rest ih =>
    obtain ⟨k, d⟩ := c
    simp only [Memory.erase]
    split
    · exact ih
    · simp [Memory.read, *]

/-- A byte written reads back. -/
theorem Memory.read_write_same (a : Nat) (b : Byte) : (m.write font a b).read font a = b := by
  unfold Memory.write
  split
  · rw [Memory.read_erase_same]; exact Eq.symm ‹_›
  · exact Memory.read_insert_same a b

/-- A write leaves every other address as it was. -/
theorem Memory.read_write_other {a a' : Nat} (b : Byte) (h : a' ≠ a) :
    (m.write font a b).read font a' = m.read font a' := by
  unfold Memory.write
  split
  · exact Memory.read_erase_other h
  · exact Memory.read_insert_other b h

/-! ### The canonical form is kept -/

theorem Memory.wfFrom_insert {lo a : Nat} {b : Byte} (h : m.wfFrom font lo = true) (hlo : lo ≤ a)
    (ha : a < ramSize) (hb : b ≠ resetByte font a) : (m.insert a b).wfFrom font lo = true := by
  induction m generalizing lo with
  | nil => exact Memory.wfFrom_cons.mpr ⟨hlo, ha, hb, rfl⟩
  | cons c rest ih =>
    obtain ⟨k, d⟩ := c
    simp only [Memory.insert]
    have hk := Memory.wfFrom_cons.mp h
    split
    · exact Memory.wfFrom_cons.mpr ⟨hlo, ha, hb, Memory.wfFrom_cons.mpr ⟨by omega, hk.2⟩⟩
    · split
      · subst k; exact Memory.wfFrom_cons.mpr ⟨hlo, ha, hb, hk.2.2.2⟩
      · exact Memory.wfFrom_cons.mpr ⟨hk.1, hk.2.1, hk.2.2.1, ih hk.2.2.2 (by omega)⟩

theorem Memory.wfFrom_erase {lo a : Nat} (h : m.wfFrom font lo = true) : (m.erase a).wfFrom font lo = true := by
  induction m generalizing lo with
  | nil => rfl
  | cons c rest ih =>
    obtain ⟨k, d⟩ := c
    have hk := Memory.wfFrom_cons.mp h
    simp only [Memory.erase]
    split
    · exact ih (Memory.wfFrom_mono (by omega) hk.2.2.2)
    · exact Memory.wfFrom_cons.mpr ⟨hk.1, hk.2.1, hk.2.2.1, ih hk.2.2.2⟩

/-- A write within RAM keeps the canonical form. -/
theorem Memory.wf_write {a : Nat} {b : Byte} (h : m.wf font = true) (ha : a < ramSize) :
    (m.write font a b).wf font = true := by
  unfold Memory.write Memory.wf
  split
  · exact Memory.wfFrom_erase h
  · exact Memory.wfFrom_insert h (Nat.zero_le _) ha ‹_›

/-- A write of bytes within RAM keeps the canonical form. -/
theorem Memory.wf_writeBytes {a : Nat} {bytes : List Byte} (h : m.wf font = true)
    (ha : a + bytes.length ≤ ramSize) : (m.writeBytes font a bytes).wf font = true := by
  induction bytes generalizing m a with
  | nil => exact h
  | cons b rest ih =>
    simp only [List.length_cons] at ha
    exact ih (Memory.wf_write h (by omega)) (by omega)

theorem Memory.wfFrom_ofBytes {a : Nat} {bytes : List Byte} (ha : a + bytes.length ≤ ramSize) :
    (Memory.ofBytes font a bytes).wfFrom font a = true := by
  induction bytes generalizing a with
  | nil => rfl
  | cons b rest ih =>
    simp only [List.length_cons] at ha
    have hrest := ih (a := a + 1) (by omega)
    simp only [Memory.ofBytes]
    split
    · exact Memory.wfFrom_mono (by omega) hrest
    · exact Memory.wfFrom_cons.mpr ⟨Nat.le_refl _, by omega, ‹_›, hrest⟩

/-- The memory built from bytes is canonical. -/
theorem Memory.wf_ofBytes {a : Nat} {bytes : List Byte} (ha : a + bytes.length ≤ ramSize) :
    (Memory.ofBytes font a bytes).wf font = true :=
  Memory.wfFrom_mono (Nat.zero_le _) (Memory.wfFrom_ofBytes ha)

/-! ### Bytes written and read -/

/-- Bytes written leave every address outside them as it was. -/
theorem Memory.read_writeBytes_outside {a a' : Nat} {bytes : List Byte}
    (h : a' < a ∨ a + bytes.length ≤ a') : (m.writeBytes font a bytes).read font a' = m.read font a' := by
  induction bytes generalizing m a with
  | nil => rfl
  | cons b rest ih =>
    simp only [List.length_cons] at h
    simp only [Memory.writeBytes]
    rw [ih (by omega), Memory.read_write_other _ (by omega)]

/-- The k-th byte written reads back. -/
theorem Memory.read_writeBytes_inside {a k : Nat} {b : Byte} {bytes : List Byte} (hk : bytes[k]? = some b) :
    (m.writeBytes font a bytes).read font (a + k) = b := by
  induction bytes generalizing m a k with
  | nil => simp at hk
  | cons d rest ih =>
    simp only [Memory.writeBytes]
    cases k with
    | zero =>
      simp only [List.getElem?_cons_zero, Option.some.injEq] at hk
      rw [Memory.read_writeBytes_outside (by omega), Nat.add_zero, Memory.read_write_same, hk]
    | succ k =>
      rw [show a + (k + 1) = a + 1 + k by omega]
      exact ih (by simpa using hk)

theorem Memory.read_ofBytes_outside {a a' : Nat} {bytes : List Byte} (h : a' < a ∨ a + bytes.length ≤ a') :
    (Memory.ofBytes font a bytes).read font a' = resetByte font a' := by
  induction bytes generalizing a with
  | nil => rfl
  | cons b rest ih =>
    simp only [List.length_cons] at h
    simp only [Memory.ofBytes]
    split
    · exact ih (by omega)
    · simp only [Memory.read]
      rw [if_neg (by omega)]
      exact ih (by omega)

theorem Memory.read_ofBytes_inside {a k : Nat} {b : Byte} {bytes : List Byte} (hk : bytes[k]? = some b) :
    (Memory.ofBytes font a bytes).read font (a + k) = b := by
  induction bytes generalizing a k with
  | nil => simp at hk
  | cons d rest ih =>
    simp only [Memory.ofBytes]
    cases k with
    | zero =>
      simp only [List.getElem?_cons_zero, Option.some.injEq] at hk
      split
      · rw [Memory.read_ofBytes_outside (by omega), Nat.add_zero, ← hk]; exact Eq.symm ‹_›
      · simp [Memory.read, hk]
    | succ k =>
      have hrest : (Memory.ofBytes font (a + 1) rest).read font (a + (k + 1)) = b := by
        rw [show a + (k + 1) = a + 1 + k by omega]; exact ih (by simpa using hk)
      split
      · exact hrest
      · simp only [Memory.read]; rw [if_neg (by omega)]; exact hrest

/-! ### Equal reads -/

theorem Memory.ext_from {m m' : Memory} {lo : Nat} (h : m.wfFrom font lo = true) (h' : m'.wfFrom font lo = true)
    (hread : ∀ a, lo ≤ a → m.read font a = m'.read font a) : m = m' := by
  induction m generalizing lo m' with
  | nil =>
    cases m' with
    | nil => rfl
    | cons c rest =>
      obtain ⟨k, b⟩ := c
      have hk := Memory.wfFrom_cons.mp h'
      have := hread k hk.1
      simp only [Memory.read, if_true] at this
      exact absurd this.symm hk.2.2.1
  | cons c rest ih =>
    obtain ⟨k, b⟩ := c
    have hk := Memory.wfFrom_cons.mp h
    cases m' with
    | nil =>
      have := hread k hk.1
      simp only [Memory.read, if_true] at this
      exact absurd this hk.2.2.1
    | cons c' rest' =>
      obtain ⟨k', b'⟩ := c'
      have hk' := Memory.wfFrom_cons.mp h'
      have hkk : k = k' := by
        rcases Nat.lt_trichotomy k k' with hlt | heq | hgt
        · have h1 := hread k hk.1
          rw [Memory.read_below (Memory.wfFrom_cons.mpr ⟨Nat.le_refl k', hk'.2⟩) hlt] at h1
          simp only [Memory.read, if_true] at h1
          exact absurd h1 hk.2.2.1
        · exact heq
        · have h1 := hread k' hk'.1
          rw [Memory.read_below (Memory.wfFrom_cons.mpr ⟨Nat.le_refl k, hk.2⟩) hgt] at h1
          simp only [Memory.read, if_true] at h1
          exact absurd h1.symm hk'.2.2.1
      subst hkk
      have hb : b = b' := by simpa [Memory.read] using hread k hk.1
      subst hb
      have : rest = rest' := by
        refine ih hk.2.2.2 hk'.2.2.2 fun a ha => ?_
        have h1 := hread a (by omega)
        simp only [Memory.read] at h1
        rwa [if_neg (by omega), if_neg (by omega)] at h1
      rw [this]

/-- Canonical memories that read alike are equal data. -/
theorem Memory.ext {m m' : Memory} (h : m.wf font = true) (h' : m'.wf font = true)
    (hread : ∀ a, m.read font a = m'.read font a) : m = m' :=
  Memory.ext_from h h' fun a _ => hread a

/-- Past RAM's end a canonical memory reads its reset contents. -/
theorem Memory.read_above {a lo : Nat} (h : m.wfFrom font lo = true) (ha : ramSize ≤ a) :
    m.read font a = resetByte font a := by
  induction m generalizing lo with
  | nil => rfl
  | cons c rest ih =>
    obtain ⟨k, b⟩ := c
    have hk := Memory.wfFrom_cons.mp h
    simp only [Memory.read]
    rw [if_neg (by omega)]
    exact ih hk.2.2.2

end Sys2Proof.Machine
end

