-- ==== Sys2Proof/Laws/State.lean ====
section
/-! SUPPORT. The state's fields after each named update, one lemma a field, and the accessors after each update. -/

namespace Sys2Proof.Machine

/-! ### `State.setV` -/

@[simp] theorem State.setV_v (s : State) (x : Reg) (b : Byte) :
    (s.setV x b).v = s.v.set x.val b := rfl

@[simp] theorem State.setV_i (s : State) (x : Reg) (b : Byte) :
    (s.setV x b).i = s.i := rfl

@[simp] theorem State.setV_pc (s : State) (x : Reg) (b : Byte) :
    (s.setV x b).pc = s.pc := rfl

@[simp] theorem State.setV_stack (s : State) (x : Reg) (b : Byte) :
    (s.setV x b).stack = s.stack := rfl

@[simp] theorem State.setV_sp (s : State) (x : Reg) (b : Byte) :
    (s.setV x b).sp = s.sp := rfl

@[simp] theorem State.setV_dt (s : State) (x : Reg) (b : Byte) :
    (s.setV x b).dt = s.dt := rfl

@[simp] theorem State.setV_st (s : State) (x : Reg) (b : Byte) :
    (s.setV x b).st = s.st := rfl

@[simp] theorem State.setV_ram (s : State) (x : Reg) (b : Byte) :
    (s.setV x b).ram = s.ram := rfl

@[simp] theorem State.setV_disp (s : State) (x : Reg) (b : Byte) :
    (s.setV x b).disp = s.disp := rfl

@[simp] theorem State.setV_keys (s : State) (x : Reg) (b : Byte) :
    (s.setV x b).keys = s.keys := rfl

@[simp] theorem State.setV_dispChanged (s : State) (x : Reg) (b : Byte) :
    (s.setV x b).dispChanged = s.dispChanged := rfl

@[simp] theorem State.setV_draws (s : State) (x : Reg) (b : Byte) :
    (s.setV x b).draws = s.draws := rfl

@[simp] theorem State.setV_params (s : State) (x : Reg) (b : Byte) :
    (s.setV x b).params = s.params := rfl

@[simp] theorem State.byteAt_setV (s : State) (x : Reg) (b : Byte) (adr : Nat) :
    (s.setV x b).byteAt adr = s.byteAt adr := rfl

/-! ### `State.setRegs` -/

@[simp] theorem State.setRegs_v (s : State) (r : Vector Byte 16) :
    (s.setRegs r).v = r := rfl

@[simp] theorem State.setRegs_i (s : State) (r : Vector Byte 16) :
    (s.setRegs r).i = s.i := rfl

@[simp] theorem State.setRegs_pc (s : State) (r : Vector Byte 16) :
    (s.setRegs r).pc = s.pc := rfl

@[simp] theorem State.setRegs_stack (s : State) (r : Vector Byte 16) :
    (s.setRegs r).stack = s.stack := rfl

@[simp] theorem State.setRegs_sp (s : State) (r : Vector Byte 16) :
    (s.setRegs r).sp = s.sp := rfl

@[simp] theorem State.setRegs_dt (s : State) (r : Vector Byte 16) :
    (s.setRegs r).dt = s.dt := rfl

@[simp] theorem State.setRegs_st (s : State) (r : Vector Byte 16) :
    (s.setRegs r).st = s.st := rfl

@[simp] theorem State.setRegs_ram (s : State) (r : Vector Byte 16) :
    (s.setRegs r).ram = s.ram := rfl

@[simp] theorem State.setRegs_disp (s : State) (r : Vector Byte 16) :
    (s.setRegs r).disp = s.disp := rfl

@[simp] theorem State.setRegs_keys (s : State) (r : Vector Byte 16) :
    (s.setRegs r).keys = s.keys := rfl

@[simp] theorem State.setRegs_dispChanged (s : State) (r : Vector Byte 16) :
    (s.setRegs r).dispChanged = s.dispChanged := rfl

@[simp] theorem State.setRegs_draws (s : State) (r : Vector Byte 16) :
    (s.setRegs r).draws = s.draws := rfl

@[simp] theorem State.setRegs_params (s : State) (r : Vector Byte 16) :
    (s.setRegs r).params = s.params := rfl

@[simp] theorem State.byteAt_setRegs (s : State) (r : Vector Byte 16) (adr : Nat) :
    (s.setRegs r).byteAt adr = s.byteAt adr := rfl

/-! ### `State.setI` -/

@[simp] theorem State.setI_v (s : State) (w : Word) :
    (s.setI w).v = s.v := rfl

@[simp] theorem State.setI_i (s : State) (w : Word) :
    (s.setI w).i = w := rfl

@[simp] theorem State.setI_pc (s : State) (w : Word) :
    (s.setI w).pc = s.pc := rfl

@[simp] theorem State.setI_stack (s : State) (w : Word) :
    (s.setI w).stack = s.stack := rfl

@[simp] theorem State.setI_sp (s : State) (w : Word) :
    (s.setI w).sp = s.sp := rfl

@[simp] theorem State.setI_dt (s : State) (w : Word) :
    (s.setI w).dt = s.dt := rfl

@[simp] theorem State.setI_st (s : State) (w : Word) :
    (s.setI w).st = s.st := rfl

@[simp] theorem State.setI_ram (s : State) (w : Word) :
    (s.setI w).ram = s.ram := rfl

@[simp] theorem State.setI_disp (s : State) (w : Word) :
    (s.setI w).disp = s.disp := rfl

@[simp] theorem State.setI_keys (s : State) (w : Word) :
    (s.setI w).keys = s.keys := rfl

@[simp] theorem State.setI_dispChanged (s : State) (w : Word) :
    (s.setI w).dispChanged = s.dispChanged := rfl

@[simp] theorem State.setI_draws (s : State) (w : Word) :
    (s.setI w).draws = s.draws := rfl

@[simp] theorem State.setI_params (s : State) (w : Word) :
    (s.setI w).params = s.params := rfl

@[simp] theorem State.getV_setI (s : State) (w : Word) (r : Reg) :
    (s.setI w).getV r = s.getV r := rfl

@[simp] theorem State.byteAt_setI (s : State) (w : Word) (adr : Nat) :
    (s.setI w).byteAt adr = s.byteAt adr := rfl

/-! ### `State.setPc` -/

@[simp] theorem State.setPc_v (s : State) (w : Word) :
    (s.setPc w).v = s.v := rfl

@[simp] theorem State.setPc_i (s : State) (w : Word) :
    (s.setPc w).i = s.i := rfl

@[simp] theorem State.setPc_pc (s : State) (w : Word) :
    (s.setPc w).pc = w := rfl

@[simp] theorem State.setPc_stack (s : State) (w : Word) :
    (s.setPc w).stack = s.stack := rfl

@[simp] theorem State.setPc_sp (s : State) (w : Word) :
    (s.setPc w).sp = s.sp := rfl

@[simp] theorem State.setPc_dt (s : State) (w : Word) :
    (s.setPc w).dt = s.dt := rfl

@[simp] theorem State.setPc_st (s : State) (w : Word) :
    (s.setPc w).st = s.st := rfl

@[simp] theorem State.setPc_ram (s : State) (w : Word) :
    (s.setPc w).ram = s.ram := rfl

@[simp] theorem State.setPc_disp (s : State) (w : Word) :
    (s.setPc w).disp = s.disp := rfl

@[simp] theorem State.setPc_keys (s : State) (w : Word) :
    (s.setPc w).keys = s.keys := rfl

@[simp] theorem State.setPc_dispChanged (s : State) (w : Word) :
    (s.setPc w).dispChanged = s.dispChanged := rfl

@[simp] theorem State.setPc_draws (s : State) (w : Word) :
    (s.setPc w).draws = s.draws := rfl

@[simp] theorem State.setPc_params (s : State) (w : Word) :
    (s.setPc w).params = s.params := rfl

@[simp] theorem State.getV_setPc (s : State) (w : Word) (r : Reg) :
    (s.setPc w).getV r = s.getV r := rfl

@[simp] theorem State.byteAt_setPc (s : State) (w : Word) (adr : Nat) :
    (s.setPc w).byteAt adr = s.byteAt adr := rfl

/-! ### `State.setDt` -/

@[simp] theorem State.setDt_v (s : State) (b : Byte) :
    (s.setDt b).v = s.v := rfl

@[simp] theorem State.setDt_i (s : State) (b : Byte) :
    (s.setDt b).i = s.i := rfl

@[simp] theorem State.setDt_pc (s : State) (b : Byte) :
    (s.setDt b).pc = s.pc := rfl

@[simp] theorem State.setDt_stack (s : State) (b : Byte) :
    (s.setDt b).stack = s.stack := rfl

@[simp] theorem State.setDt_sp (s : State) (b : Byte) :
    (s.setDt b).sp = s.sp := rfl

@[simp] theorem State.setDt_dt (s : State) (b : Byte) :
    (s.setDt b).dt = b := rfl

@[simp] theorem State.setDt_st (s : State) (b : Byte) :
    (s.setDt b).st = s.st := rfl

@[simp] theorem State.setDt_ram (s : State) (b : Byte) :
    (s.setDt b).ram = s.ram := rfl

@[simp] theorem State.setDt_disp (s : State) (b : Byte) :
    (s.setDt b).disp = s.disp := rfl

@[simp] theorem State.setDt_keys (s : State) (b : Byte) :
    (s.setDt b).keys = s.keys := rfl

@[simp] theorem State.setDt_dispChanged (s : State) (b : Byte) :
    (s.setDt b).dispChanged = s.dispChanged := rfl

@[simp] theorem State.setDt_draws (s : State) (b : Byte) :
    (s.setDt b).draws = s.draws := rfl

@[simp] theorem State.setDt_params (s : State) (b : Byte) :
    (s.setDt b).params = s.params := rfl

@[simp] theorem State.getV_setDt (s : State) (b : Byte) (r : Reg) :
    (s.setDt b).getV r = s.getV r := rfl

@[simp] theorem State.byteAt_setDt (s : State) (b : Byte) (adr : Nat) :
    (s.setDt b).byteAt adr = s.byteAt adr := rfl

/-! ### `State.setSt` -/

@[simp] theorem State.setSt_v (s : State) (b : Byte) :
    (s.setSt b).v = s.v := rfl

@[simp] theorem State.setSt_i (s : State) (b : Byte) :
    (s.setSt b).i = s.i := rfl

@[simp] theorem State.setSt_pc (s : State) (b : Byte) :
    (s.setSt b).pc = s.pc := rfl

@[simp] theorem State.setSt_stack (s : State) (b : Byte) :
    (s.setSt b).stack = s.stack := rfl

@[simp] theorem State.setSt_sp (s : State) (b : Byte) :
    (s.setSt b).sp = s.sp := rfl

@[simp] theorem State.setSt_dt (s : State) (b : Byte) :
    (s.setSt b).dt = s.dt := rfl

@[simp] theorem State.setSt_st (s : State) (b : Byte) :
    (s.setSt b).st = b := rfl

@[simp] theorem State.setSt_ram (s : State) (b : Byte) :
    (s.setSt b).ram = s.ram := rfl

@[simp] theorem State.setSt_disp (s : State) (b : Byte) :
    (s.setSt b).disp = s.disp := rfl

@[simp] theorem State.setSt_keys (s : State) (b : Byte) :
    (s.setSt b).keys = s.keys := rfl

@[simp] theorem State.setSt_dispChanged (s : State) (b : Byte) :
    (s.setSt b).dispChanged = s.dispChanged := rfl

@[simp] theorem State.setSt_draws (s : State) (b : Byte) :
    (s.setSt b).draws = s.draws := rfl

@[simp] theorem State.setSt_params (s : State) (b : Byte) :
    (s.setSt b).params = s.params := rfl

@[simp] theorem State.getV_setSt (s : State) (b : Byte) (r : Reg) :
    (s.setSt b).getV r = s.getV r := rfl

@[simp] theorem State.byteAt_setSt (s : State) (b : Byte) (adr : Nat) :
    (s.setSt b).byteAt adr = s.byteAt adr := rfl

/-! ### `State.advance` -/

@[simp] theorem State.advance_v (s : State) :
    (s.advance).v = s.v := rfl

@[simp] theorem State.advance_i (s : State) :
    (s.advance).i = s.i := rfl

@[simp] theorem State.advance_pc (s : State) :
    (s.advance).pc = s.pc + 2#16 := rfl

@[simp] theorem State.advance_stack (s : State) :
    (s.advance).stack = s.stack := rfl

@[simp] theorem State.advance_sp (s : State) :
    (s.advance).sp = s.sp := rfl

@[simp] theorem State.advance_dt (s : State) :
    (s.advance).dt = s.dt := rfl

@[simp] theorem State.advance_st (s : State) :
    (s.advance).st = s.st := rfl

@[simp] theorem State.advance_ram (s : State) :
    (s.advance).ram = s.ram := rfl

@[simp] theorem State.advance_disp (s : State) :
    (s.advance).disp = s.disp := rfl

@[simp] theorem State.advance_keys (s : State) :
    (s.advance).keys = s.keys := rfl

@[simp] theorem State.advance_dispChanged (s : State) :
    (s.advance).dispChanged = s.dispChanged := rfl

@[simp] theorem State.advance_draws (s : State) :
    (s.advance).draws = s.draws := rfl

@[simp] theorem State.advance_params (s : State) :
    (s.advance).params = s.params := rfl

@[simp] theorem State.getV_advance (s : State) (r : Reg) :
    (s.advance).getV r = s.getV r := rfl

@[simp] theorem State.byteAt_advance (s : State) (adr : Nat) :
    (s.advance).byteAt adr = s.byteAt adr := rfl

/-! ### `State.skipIf` -/

@[simp] theorem State.skipIf_v (s : State) (c : Bool) :
    (s.skipIf c).v = s.v := rfl

@[simp] theorem State.skipIf_i (s : State) (c : Bool) :
    (s.skipIf c).i = s.i := rfl

@[simp] theorem State.skipIf_pc (s : State) (c : Bool) :
    (s.skipIf c).pc = s.pc + (if c then 4#16 else 2#16) := rfl

@[simp] theorem State.skipIf_stack (s : State) (c : Bool) :
    (s.skipIf c).stack = s.stack := rfl

@[simp] theorem State.skipIf_sp (s : State) (c : Bool) :
    (s.skipIf c).sp = s.sp := rfl

@[simp] theorem State.skipIf_dt (s : State) (c : Bool) :
    (s.skipIf c).dt = s.dt := rfl

@[simp] theorem State.skipIf_st (s : State) (c : Bool) :
    (s.skipIf c).st = s.st := rfl

@[simp] theorem State.skipIf_ram (s : State) (c : Bool) :
    (s.skipIf c).ram = s.ram := rfl

@[simp] theorem State.skipIf_disp (s : State) (c : Bool) :
    (s.skipIf c).disp = s.disp := rfl

@[simp] theorem State.skipIf_keys (s : State) (c : Bool) :
    (s.skipIf c).keys = s.keys := rfl

@[simp] theorem State.skipIf_dispChanged (s : State) (c : Bool) :
    (s.skipIf c).dispChanged = s.dispChanged := rfl

@[simp] theorem State.skipIf_draws (s : State) (c : Bool) :
    (s.skipIf c).draws = s.draws := rfl

@[simp] theorem State.skipIf_params (s : State) (c : Bool) :
    (s.skipIf c).params = s.params := rfl

@[simp] theorem State.getV_skipIf (s : State) (c : Bool) (r : Reg) :
    (s.skipIf c).getV r = s.getV r := rfl

@[simp] theorem State.byteAt_skipIf (s : State) (c : Bool) (adr : Nat) :
    (s.skipIf c).byteAt adr = s.byteAt adr := rfl

/-! ### `State.countDraw` -/

@[simp] theorem State.countDraw_v (s : State) :
    (s.countDraw).v = s.v := rfl

@[simp] theorem State.countDraw_i (s : State) :
    (s.countDraw).i = s.i := rfl

@[simp] theorem State.countDraw_pc (s : State) :
    (s.countDraw).pc = s.pc := rfl

@[simp] theorem State.countDraw_stack (s : State) :
    (s.countDraw).stack = s.stack := rfl

@[simp] theorem State.countDraw_sp (s : State) :
    (s.countDraw).sp = s.sp := rfl

@[simp] theorem State.countDraw_dt (s : State) :
    (s.countDraw).dt = s.dt := rfl

@[simp] theorem State.countDraw_st (s : State) :
    (s.countDraw).st = s.st := rfl

@[simp] theorem State.countDraw_ram (s : State) :
    (s.countDraw).ram = s.ram := rfl

@[simp] theorem State.countDraw_disp (s : State) :
    (s.countDraw).disp = s.disp := rfl

@[simp] theorem State.countDraw_keys (s : State) :
    (s.countDraw).keys = s.keys := rfl

@[simp] theorem State.countDraw_dispChanged (s : State) :
    (s.countDraw).dispChanged = s.dispChanged := rfl

@[simp] theorem State.countDraw_draws (s : State) :
    (s.countDraw).draws = s.draws + 1 := rfl

@[simp] theorem State.countDraw_params (s : State) :
    (s.countDraw).params = s.params := rfl

@[simp] theorem State.getV_countDraw (s : State) (r : Reg) :
    (s.countDraw).getV r = s.getV r := rfl

@[simp] theorem State.byteAt_countDraw (s : State) (adr : Nat) :
    (s.countDraw).byteAt adr = s.byteAt adr := rfl

/-! ### `State.putBytes` -/

@[simp] theorem State.putBytes_v (s : State) (a : Nat) (bytes : List Byte) :
    (s.putBytes a bytes).v = s.v := rfl

@[simp] theorem State.putBytes_i (s : State) (a : Nat) (bytes : List Byte) :
    (s.putBytes a bytes).i = s.i := rfl

@[simp] theorem State.putBytes_pc (s : State) (a : Nat) (bytes : List Byte) :
    (s.putBytes a bytes).pc = s.pc := rfl

@[simp] theorem State.putBytes_stack (s : State) (a : Nat) (bytes : List Byte) :
    (s.putBytes a bytes).stack = s.stack := rfl

@[simp] theorem State.putBytes_sp (s : State) (a : Nat) (bytes : List Byte) :
    (s.putBytes a bytes).sp = s.sp := rfl

@[simp] theorem State.putBytes_dt (s : State) (a : Nat) (bytes : List Byte) :
    (s.putBytes a bytes).dt = s.dt := rfl

@[simp] theorem State.putBytes_st (s : State) (a : Nat) (bytes : List Byte) :
    (s.putBytes a bytes).st = s.st := rfl

@[simp] theorem State.putBytes_ram (s : State) (a : Nat) (bytes : List Byte) :
    (s.putBytes a bytes).ram = s.ram.writeBytes s.params.font a bytes := rfl

@[simp] theorem State.putBytes_disp (s : State) (a : Nat) (bytes : List Byte) :
    (s.putBytes a bytes).disp = s.disp := rfl

@[simp] theorem State.putBytes_keys (s : State) (a : Nat) (bytes : List Byte) :
    (s.putBytes a bytes).keys = s.keys := rfl

@[simp] theorem State.putBytes_dispChanged (s : State) (a : Nat) (bytes : List Byte) :
    (s.putBytes a bytes).dispChanged = s.dispChanged := rfl

@[simp] theorem State.putBytes_draws (s : State) (a : Nat) (bytes : List Byte) :
    (s.putBytes a bytes).draws = s.draws := rfl

@[simp] theorem State.putBytes_params (s : State) (a : Nat) (bytes : List Byte) :
    (s.putBytes a bytes).params = s.params := rfl

@[simp] theorem State.getV_putBytes (s : State) (a : Nat) (bytes : List Byte) (r : Reg) :
    (s.putBytes a bytes).getV r = s.getV r := rfl

/-! ### `State.showGrid` -/

@[simp] theorem State.showGrid_v (s : State) (d : Grid) :
    (s.showGrid d).v = s.v := rfl

@[simp] theorem State.showGrid_i (s : State) (d : Grid) :
    (s.showGrid d).i = s.i := rfl

@[simp] theorem State.showGrid_pc (s : State) (d : Grid) :
    (s.showGrid d).pc = s.pc := rfl

@[simp] theorem State.showGrid_stack (s : State) (d : Grid) :
    (s.showGrid d).stack = s.stack := rfl

@[simp] theorem State.showGrid_sp (s : State) (d : Grid) :
    (s.showGrid d).sp = s.sp := rfl

@[simp] theorem State.showGrid_dt (s : State) (d : Grid) :
    (s.showGrid d).dt = s.dt := rfl

@[simp] theorem State.showGrid_st (s : State) (d : Grid) :
    (s.showGrid d).st = s.st := rfl

@[simp] theorem State.showGrid_ram (s : State) (d : Grid) :
    (s.showGrid d).ram = s.ram := rfl

@[simp] theorem State.showGrid_disp (s : State) (d : Grid) :
    (s.showGrid d).disp = d := rfl

@[simp] theorem State.showGrid_keys (s : State) (d : Grid) :
    (s.showGrid d).keys = s.keys := rfl

@[simp] theorem State.showGrid_dispChanged (s : State) (d : Grid) :
    (s.showGrid d).dispChanged = true := rfl

@[simp] theorem State.showGrid_draws (s : State) (d : Grid) :
    (s.showGrid d).draws = s.draws := rfl

@[simp] theorem State.showGrid_params (s : State) (d : Grid) :
    (s.showGrid d).params = s.params := rfl

@[simp] theorem State.getV_showGrid (s : State) (d : Grid) (r : Reg) :
    (s.showGrid d).getV r = s.getV r := rfl

@[simp] theorem State.byteAt_showGrid (s : State) (d : Grid) (adr : Nat) :
    (s.showGrid d).byteAt adr = s.byteAt adr := rfl

/-! ### `State.setKey` -/

@[simp] theorem State.setKey_v (s : State) (k : Nat) (down : Bool) :
    (s.setKey k down).v = s.v := rfl

@[simp] theorem State.setKey_i (s : State) (k : Nat) (down : Bool) :
    (s.setKey k down).i = s.i := rfl

@[simp] theorem State.setKey_pc (s : State) (k : Nat) (down : Bool) :
    (s.setKey k down).pc = s.pc := rfl

@[simp] theorem State.setKey_stack (s : State) (k : Nat) (down : Bool) :
    (s.setKey k down).stack = s.stack := rfl

@[simp] theorem State.setKey_sp (s : State) (k : Nat) (down : Bool) :
    (s.setKey k down).sp = s.sp := rfl

@[simp] theorem State.setKey_dt (s : State) (k : Nat) (down : Bool) :
    (s.setKey k down).dt = s.dt := rfl

@[simp] theorem State.setKey_st (s : State) (k : Nat) (down : Bool) :
    (s.setKey k down).st = s.st := rfl

@[simp] theorem State.setKey_ram (s : State) (k : Nat) (down : Bool) :
    (s.setKey k down).ram = s.ram := rfl

@[simp] theorem State.setKey_disp (s : State) (k : Nat) (down : Bool) :
    (s.setKey k down).disp = s.disp := rfl

@[simp] theorem State.setKey_keys (s : State) (k : Nat) (down : Bool) :
    (s.setKey k down).keys = s.keys.setIfInBounds k down := rfl

@[simp] theorem State.setKey_dispChanged (s : State) (k : Nat) (down : Bool) :
    (s.setKey k down).dispChanged = s.dispChanged := rfl

@[simp] theorem State.setKey_draws (s : State) (k : Nat) (down : Bool) :
    (s.setKey k down).draws = s.draws := rfl

@[simp] theorem State.setKey_params (s : State) (k : Nat) (down : Bool) :
    (s.setKey k down).params = s.params := rfl

@[simp] theorem State.getV_setKey (s : State) (k : Nat) (down : Bool) (r : Reg) :
    (s.setKey k down).getV r = s.getV r := rfl

@[simp] theorem State.byteAt_setKey (s : State) (k : Nat) (down : Bool) (adr : Nat) :
    (s.setKey k down).byteAt adr = s.byteAt adr := rfl

/-! ### `State.setVFlag` -/

@[simp] theorem State.setVFlag_v (s : State) (x : Reg) (b : Byte) (c : Bool) :
    (s.setVFlag x b c).v = (s.v.set x.val b).set 15 (flagByte c) := rfl

@[simp] theorem State.setVFlag_i (s : State) (x : Reg) (b : Byte) (c : Bool) :
    (s.setVFlag x b c).i = s.i := rfl

@[simp] theorem State.setVFlag_pc (s : State) (x : Reg) (b : Byte) (c : Bool) :
    (s.setVFlag x b c).pc = s.pc := rfl

@[simp] theorem State.setVFlag_stack (s : State) (x : Reg) (b : Byte) (c : Bool) :
    (s.setVFlag x b c).stack = s.stack := rfl

@[simp] theorem State.setVFlag_sp (s : State) (x : Reg) (b : Byte) (c : Bool) :
    (s.setVFlag x b c).sp = s.sp := rfl

@[simp] theorem State.setVFlag_dt (s : State) (x : Reg) (b : Byte) (c : Bool) :
    (s.setVFlag x b c).dt = s.dt := rfl

@[simp] theorem State.setVFlag_st (s : State) (x : Reg) (b : Byte) (c : Bool) :
    (s.setVFlag x b c).st = s.st := rfl

@[simp] theorem State.setVFlag_ram (s : State) (x : Reg) (b : Byte) (c : Bool) :
    (s.setVFlag x b c).ram = s.ram := rfl

@[simp] theorem State.setVFlag_disp (s : State) (x : Reg) (b : Byte) (c : Bool) :
    (s.setVFlag x b c).disp = s.disp := rfl

@[simp] theorem State.setVFlag_keys (s : State) (x : Reg) (b : Byte) (c : Bool) :
    (s.setVFlag x b c).keys = s.keys := rfl

@[simp] theorem State.setVFlag_dispChanged (s : State) (x : Reg) (b : Byte) (c : Bool) :
    (s.setVFlag x b c).dispChanged = s.dispChanged := rfl

@[simp] theorem State.setVFlag_draws (s : State) (x : Reg) (b : Byte) (c : Bool) :
    (s.setVFlag x b c).draws = s.draws := rfl

@[simp] theorem State.setVFlag_params (s : State) (x : Reg) (b : Byte) (c : Bool) :
    (s.setVFlag x b c).params = s.params := rfl

@[simp] theorem State.byteAt_setVFlag (s : State) (x : Reg) (b : Byte) (c : Bool) (adr : Nat) :
    (s.setVFlag x b c).byteAt adr = s.byteAt adr := rfl

/-! ### Register reads -/

theorem State.getV_setV (s : State) (x r : Reg) (b : Byte) :
    (s.setV x b).getV r = if x = r then b else s.getV r := by
  simp only [State.getV, State.setV, Vector.getElem_set, Fin.ext_iff]

@[simp] theorem State.getV_setV_same (s : State) (x : Reg) (b : Byte) : (s.setV x b).getV x = b := by
  simp [State.getV_setV]

theorem State.getV_setV_other (s : State) {x r : Reg} (b : Byte) (h : r ≠ x) :
    (s.setV x b).getV r = s.getV r := by
  simp [State.getV_setV, Ne.symm h]

/-- After a flagged result VF holds the flag, whatever X is (R12). -/
@[simp] theorem State.getV_setVFlag_flag (s : State) (x : Reg) (b : Byte) (c : Bool) :
    (s.setVFlag x b c).getV regF = flagByte c := State.getV_setV_same _ _ _

theorem State.getV_setVFlag_other (s : State) {x r : Reg} (b : Byte) (c : Bool) (hx : r ≠ x) (hf : r ≠ regF) :
    (s.setVFlag x b c).getV r = s.getV r := by
  simp only [State.setVFlag, State.getV_setV_other _ _ hf, State.getV_setV_other _ _ hx]

end Sys2Proof.Machine
end

