-- ==== Sys2Proof/Laws/Ops.lean ====
section
/-! SUPPORT. What each shared operation can do, one lemma an outcome, for callers to cite. -/

namespace Sys2Proof.Machine

/-! ### Raising and committing -/

@[simp] theorem attempt_ok {α : Type} (a : α) (k : α → StepResult) : attempt (.ok a) k = k a := rfl

@[simp] theorem attempt_error {α : Type} (f : Fault) (k : α → StepResult) :
    attempt (.error f : Except Fault α) k = .fault f := rfl

/-- An attempt answers a next state only where its check passed. -/
theorem attempt_next {α : Type} {r : Except Fault α} {k : α → StepResult} {t : State}
    (h : attempt r k = .next t) : ∃ a, r = .ok a ∧ k a = .next t := by
  cases r with
  | error f => exact absurd h (by simp)
  | ok a => exact ⟨a, rfl, h⟩

/-! ### Range checks (R55) -/

/-- The range lies in RAM. -/
def InRange (a n : Nat) : Prop := n = 0 ∨ a + n - 1 ≤ 0xFFF

theorem checkRange_ok {a n : Nat} (h : InRange a n) : checkRange a n = .ok () := by
  unfold InRange at h
  unfold checkRange
  rw [if_neg (by omega)]

theorem checkRange_fault {a n : Nat} (h : ¬ InRange a n) :
    checkRange a n = .error (.addressOutOfRange (max a 0x1000)) := by
  unfold InRange at h
  unfold checkRange
  rw [if_pos (by omega)]

theorem memRead_ok {s : State} {a n : Nat} (h : InRange a n) : memRead s a n = .ok (s.bytesAt a n) := by
  simp [memRead, checkRange_ok h]

theorem memRead_fault {s : State} {a n : Nat} (h : ¬ InRange a n) :
    memRead s a n = .error (.addressOutOfRange (max a 0x1000)) := by
  simp [memRead, checkRange_fault h]

theorem memWrite_ok {s : State} {a : Nat} {bytes : List Byte} (h : InRange a bytes.length) :
    memWrite s a bytes = .ok (s.putBytes a bytes) := by
  simp [memWrite, checkRange_ok h]

theorem memWrite_fault {s : State} {a : Nat} {bytes : List Byte} (h : ¬ InRange a bytes.length) :
    memWrite s a bytes = .error (.addressOutOfRange (max a 0x1000)) := by
  simp [memWrite, checkRange_fault h]

/-- A write that succeeds wrote its bytes, all within RAM. -/
theorem memWrite_eq_ok {s t : State} {a : Nat} {bytes : List Byte} (h : memWrite s a bytes = .ok t) :
    InRange a bytes.length ∧ t = s.putBytes a bytes := by
  by_cases hr : InRange a bytes.length
  · rw [memWrite_ok hr] at h
    exact ⟨hr, (Except.ok.inj h).symm⟩
  · rw [memWrite_fault hr] at h
    cases h

/-- A read that succeeds gave its bytes, all within RAM. -/
theorem memRead_eq_ok {s : State} {a n : Nat} {bytes : List Byte} (h : memRead s a n = .ok bytes) :
    InRange a n ∧ bytes = s.bytesAt a n := by
  by_cases hr : InRange a n
  · rw [memRead_ok hr] at h
    exact ⟨hr, (Except.ok.inj h).symm⟩
  · rw [memRead_fault hr] at h
    cases h

theorem fetch_ok {s : State} (h : s.pc.toNat + 1 ≤ 0xFFF) :
    fetch s = .ok (opcodeOf (s.byteAt s.pc.toNat) (s.byteAt (s.pc.toNat + 1))) := by
  simp [fetch, checkRange_ok (show InRange s.pc.toNat 2 from Or.inr (by omega))]

theorem fetch_fault {s : State} (h : 0xFFF < s.pc.toNat + 1) :
    fetch s = .error (.addressOutOfRange (max s.pc.toNat 0x1000)) := by
  have : ¬ InRange s.pc.toNat 2 := by unfold InRange; omega
  simp [fetch, checkRange_fault this]

/-! ### Bytes (R57) -/

@[simp] theorem State.length_bytesAt (s : State) (a n : Nat) : (s.bytesAt a n).length = n := by
  induction n generalizing a with
  | zero => rfl
  | succ k ih => simp [State.bytesAt, ih]

theorem State.getElem?_bytesAt (s : State) {a n k : Nat} (h : k < n) :
    (s.bytesAt a n)[k]? = some (s.byteAt (a + k)) := by
  induction n generalizing a k with
  | zero => omega
  | succ m ih =>
    cases k with
    | zero => simp [State.bytesAt]
    | succ k =>
      rw [show a + (k + 1) = a + 1 + k by omega]
      simpa [State.bytesAt] using ih (by omega)

theorem State.byteAt_putBytes_outside (s : State) {a adr : Nat} {bytes : List Byte}
    (h : adr < a ∨ a + bytes.length ≤ adr) : (s.putBytes a bytes).byteAt adr = s.byteAt adr :=
  Memory.read_writeBytes_outside h

theorem State.byteAt_putBytes_inside (s : State) {a k : Nat} {b : Byte} {bytes : List Byte}
    (h : bytes[k]? = some b) : (s.putBytes a bytes).byteAt (a + k) = b :=
  Memory.read_writeBytes_inside h

/-! ### The return stack (R27, R28) -/

theorem pushStack_ok {s : State} {k : Fin 16} (w : Word) (h : s.sp.val = k.val) :
    pushStack s w = .ok { s with stack := s.stack.set k.val w, sp := k.succ } := by
  simp only [pushStack, h]
  rw [dif_pos k.isLt]
  rfl

theorem pushStack_full {s : State} (w : Word) (h : s.sp.val = 16) :
    pushStack s w = .error (.stackOverflow s.pc) := by
  simp only [pushStack]
  rw [dif_neg (by omega)]

theorem popStack_ok {s : State} {k : Fin 16} (h : s.sp.val = k.val + 1) :
    popStack s = .ok (s.stack[k.val], { s with sp := k.castSucc }) := by
  simp only [popStack, h, Nat.add_sub_cancel]
  rfl

theorem popStack_empty {s : State} (h : s.sp.val = 0) : popStack s = .error (.stackUnderflow s.pc) := by
  simp only [popStack, dif_pos h]

/-- SP is either full or the index of a free entry. -/
theorem State.sp_room (s : State) : s.sp.val = 16 ∨ ∃ k : Fin 16, s.sp.val = k.val := by
  by_cases h : s.sp.val = 16
  · exact Or.inl h
  · exact Or.inr ⟨⟨s.sp.val, by omega⟩, rfl⟩

/-- SP is either 0 or one above a live entry. -/
theorem State.sp_live (s : State) : s.sp.val = 0 ∨ ∃ k : Fin 16, s.sp.val = k.val + 1 := by
  by_cases h : s.sp.val = 0
  · exact Or.inl h
  · exact Or.inr ⟨⟨s.sp.val - 1, by omega⟩, by simp; omega⟩

/-! ### Keys (R327, R230) -/

theorem State.isPressed_of_lt (s : State) {k : Nat} (h : k < 16) : s.isPressed k = s.keys[k] := by
  simp [State.isPressed, h]

theorem State.isPressed_of_ge (s : State) {k : Nat} (h : 16 ≤ k) : s.isPressed k = false := by
  simp [State.isPressed, Nat.not_lt.mpr h]

theorem lowestKeyFrom_none {s : State} {k n : Nat} :
    lowestKeyFrom s k n = none ↔ ∀ j, k ≤ j → j < k + n → s.isPressed j = false := by
  induction n generalizing k with
  | zero => simp [lowestKeyFrom]; omega
  | succ m ih =>
    simp only [lowestKeyFrom]
    split
    · rename_i h
      simp only [reduceCtorEq, false_iff, not_forall]
      exact ⟨k, Nat.le_refl k, by omega, by simp [h]⟩
    · rename_i h
      rw [ih]
      constructor
      · intro hall j hj hj'
        rcases Nat.eq_or_lt_of_le hj with rfl | hlt
        · simpa using h
        · exact hall j (by omega) (by omega)
      · exact fun hall j hj hj' => hall j (by omega) (by omega)

theorem lowestKeyFrom_some {s : State} {k n m : Nat} (hm : k ≤ m) (hn : m < k + n)
    (hp : s.isPressed m = true) (hlow : ∀ j, k ≤ j → j < m → s.isPressed j = false) :
    lowestKeyFrom s k n = some m := by
  induction n generalizing k with
  | zero => omega
  | succ l ih =>
    simp only [lowestKeyFrom]
    rcases Nat.eq_or_lt_of_le hm with rfl | hlt
    · simp [hp]
    · rw [hlow k (Nat.le_refl k) hlt]
      exact ih (by omega) (by omega) fun j hj hj' => hlow j (by omega) hj'

/-- No key is found exactly when all sixteen are up. -/
theorem lowestKey_none {s : State} : lowestKey s = none ↔ ∀ k : Fin 16, s.keys[k.val] = false := by
  rw [lowestKey, lowestKeyFrom_none]
  constructor
  · intro h k
    have := h k.val (Nat.zero_le _) (by omega)
    rwa [s.isPressed_of_lt k.isLt] at this
  · intro h j _ hj
    rw [s.isPressed_of_lt (by omega)]
    exact h ⟨j, by omega⟩

/-- The key found is the lowest that is down. -/
theorem lowestKey_some {s : State} {k : Fin 16} (hk : s.keys[k.val] = true)
    (hlow : ∀ j : Fin 16, j < k → s.keys[j.val] = false) : lowestKey s = some k.val := by
  refine lowestKeyFrom_some (Nat.zero_le _) (by omega) ?_ fun j _ hj => ?_
  · rw [s.isPressed_of_lt k.isLt]; exact hk
  · rw [s.isPressed_of_lt (by omega)]
    exact hlow ⟨j, by omega⟩ hj

/-! ### Register blocks (R206, R207) -/

theorem length_regBlock (s : State) (x : Reg) : (regBlock s x).length = x.val + 1 := by
  simp [regBlock, regList]

theorem getElem?_regBlock (s : State) {x k : Reg} (h : k.val ≤ x.val) :
    (regBlock s x)[k.val]? = some (s.getV k) := by
  simp only [regBlock, regList, State.getV]
  rw [List.getElem?_take_of_lt (by omega)]
  simp

/-- Register r after filling from register k on. -/
theorem getElem_fillRegs (bytes : List Byte) (r : Vector Byte 16) (k j : Nat) (hj : j < 16) :
    (fillRegs r k bytes)[j] =
      if h : k ≤ j ∧ j < k + bytes.length then bytes[j - k]'(by omega) else r[j] := by
  induction bytes generalizing r k with
  | nil => simp only [fillRegs, List.length_nil]; rw [dif_neg (by omega)]
  | cons b rest ih =>
    simp only [fillRegs, ih, List.length_cons]
    by_cases hkj : k = j
    · subst hkj
      rw [dif_neg (by omega), dif_pos (by omega)]
      simp
    · by_cases hin : k + 1 ≤ j ∧ j < k + 1 + rest.length
      · rw [dif_pos hin, dif_pos (by omega)]
        have : j - k = (j - (k + 1)) + 1 := by omega
        simp [this]
      · rw [dif_neg hin, dif_neg (by omega), Vector.getElem_setIfInBounds_ne _ hkj]

@[simp] theorem length_bcdDigits (b : Byte) : (bcdDigits b).length = 3 := rfl

end Sys2Proof.Machine
end

