-- ==== Sys2Proof/Laws/Exec.lean ====
section
/-! SUPPORT. What the instructions with a check or a choice can do, one lemma each, and what every instruction can do to memory.
The other instructions' meanings are a `.next` by definition. -/

namespace Sys2Proof.Machine

/-! ### Reads see RAM and the font only -/

theorem State.byteAt_congr {s t : State} (hram : t.ram = s.ram) (hparams : t.params = s.params) (a : Nat) :
    t.byteAt a = s.byteAt a := by simp only [State.byteAt, hram, hparams]

theorem State.bytesAt_congr {s t : State} (hram : t.ram = s.ram) (hparams : t.params = s.params) (a n : Nat) :
    t.bytesAt a n = s.bytesAt a n := by
  induction n generalizing a with
  | zero => rfl
  | succ k ih => simp only [State.bytesAt, ih, State.byteAt_congr hram hparams]

theorem memRead_congr {s t : State} (hram : t.ram = s.ram) (hparams : t.params = s.params) (a n : Nat) :
    memRead t a n = memRead s a n := by simp only [memRead, State.bytesAt_congr hram hparams]

theorem fetch_congr {s t : State} (hpc : t.pc = s.pc) (hram : t.ram = s.ram) (hparams : t.params = s.params) :
    fetch t = fetch s := by simp only [fetch, hpc, State.byteAt_congr hram hparams]

/-! ### The invariant -/

/-- The invariant is about RAM and the font only. -/
theorem State.Inv_congr {s t : State} (hram : t.ram = s.ram) (hparams : t.params = s.params) : t.Inv ↔ s.Inv := by
  simp only [State.Inv, hram, hparams]

/-- Bytes written within RAM keep the invariant. -/
theorem State.Inv_putBytes {s : State} {a : Nat} {bytes : List Byte} (h : s.Inv) (hr : InRange a bytes.length) :
    (s.putBytes a bytes).Inv := by
  unfold InRange at hr
  rcases hr with h0 | hle
  · rw [List.length_eq_zero_iff] at h0; subst h0; exact h
  · rcases Nat.eq_zero_or_pos bytes.length with h0 | hpos
    · rw [List.length_eq_zero_iff] at h0; subst h0; exact h
    · exact Memory.wf_writeBytes h (by simp only [ramSize]; omega)

/-! ### What an instruction answers -/

theorem execRet_next {s t : State} (h : execRet s = .next t) :
    ∃ k : Fin 16, s.sp.val = k.val + 1 ∧ t = { s with pc := s.stack[k.val], sp := k.castSucc } := by
  rcases s.sp_live with hs | ⟨k, hs⟩
  · simp [execRet, popStack_empty hs] at h
  · simp only [execRet, popStack_ok hs, attempt_ok] at h
    injection h with h
    exact ⟨k, hs, h.symm⟩

theorem execCall_next {s t : State} {nnn : BitVec 12} (h : execCall nnn s = .next t) :
    ∃ k : Fin 16, s.sp.val = k.val ∧
      t = { s with stack := s.stack.set k.val (s.pc + 2#16), sp := k.succ, pc := addrOperand nnn } := by
  rcases s.sp_room with hs | ⟨k, hs⟩
  · simp [execCall, pushStack_full _ hs] at h
  · simp only [execCall, pushStack_ok _ hs, attempt_ok] at h
    injection h with h
    exact ⟨k, hs, h.symm⟩

theorem execDrw_next {s t : State} {x y : Reg} {n : BitVec 4} (h : execDrw x y n s = .next t) :
    InRange s.i.toNat n.toNat ∧ ∃ (d : Grid) (flag : Byte),
      t = { s with disp := d, dispChanged := true, v := s.v.set 15 flag, pc := s.pc + 2#16 } := by
  obtain ⟨rows, hr, h⟩ := attempt_next h
  injection h with h
  exact ⟨(memRead_eq_ok hr).1, _, _, h.symm⟩

theorem execLdBVx_next {s t : State} {x : Reg} (h : execLdBVx x s = .next t) :
    InRange s.i.toNat 3 ∧ t = (s.putBytes s.i.toNat (bcdDigits (s.getV x))).advance := by
  obtain ⟨u, hu, h⟩ := attempt_next h
  obtain ⟨hr, rfl⟩ := memWrite_eq_ok hu
  injection h with h
  exact ⟨hr, h.symm⟩

theorem execLdMemVx_next {s t : State} {x : Reg} (h : execLdMemVx x s = .next t) :
    InRange s.i.toNat (x.val + 1) ∧ t = (s.putBytes s.i.toNat (regBlock s x)).advance := by
  obtain ⟨u, hu, h⟩ := attempt_next h
  obtain ⟨hr, rfl⟩ := memWrite_eq_ok hu
  rw [length_regBlock] at hr
  injection h with h
  exact ⟨hr, h.symm⟩

theorem execLdVxMem_next {s t : State} {x : Reg} (h : execLdVxMem x s = .next t) :
    InRange s.i.toNat (x.val + 1) ∧
      t = (s.setRegs (fillRegs s.v 0 (s.bytesAt s.i.toNat (x.val + 1)))).advance := by
  obtain ⟨bytes, hb, h⟩ := attempt_next h
  obtain ⟨hr, rfl⟩ := memRead_eq_ok hb
  injection h with h
  exact ⟨hr, h.symm⟩

theorem execLdVxK_next {s t : State} {x : Reg} (h : execLdVxK x s = .next t) :
    (lowestKey s = none ∧ t = s) ∨
      ∃ k, lowestKey s = some k ∧ t = (s.setV x (BitVec.ofNat 8 k)).advance := by
  simp only [execLdVxK] at h
  split at h
  · injection h with h
    exact Or.inl ⟨‹_›, h.symm⟩
  · injection h with h
    exact Or.inr ⟨_, ‹_›, h.symm⟩

/-- Everything an instruction can do to memory: nothing, or its own count of bytes written from address I, within RAM. -/
theorem exec_memory {i : Instr} {s t : State} (h : exec i s = .next t) :
    (storeCount i = 0 ∧ t.ram = s.ram ∧ t.params = s.params) ∨
      ∃ bytes : List Byte, bytes.length = storeCount i ∧ InRange s.i.toNat bytes.length ∧
        t = (s.putBytes s.i.toNat bytes).advance := by
  cases i
  case ret => obtain ⟨k, -, rfl⟩ := execRet_next h; exact Or.inl ⟨rfl, rfl, rfl⟩
  case call nnn => obtain ⟨k, -, rfl⟩ := execCall_next h; exact Or.inl ⟨rfl, rfl, rfl⟩
  case drw x y n => obtain ⟨-, d, f, rfl⟩ := execDrw_next h; exact Or.inl ⟨rfl, rfl, rfl⟩
  case ldBVx x => obtain ⟨hr, rfl⟩ := execLdBVx_next h; exact Or.inr ⟨bcdDigits (s.getV x), rfl, hr, rfl⟩
  case ldMemVx x =>
    obtain ⟨hr, rfl⟩ := execLdMemVx_next h
    exact Or.inr ⟨_, length_regBlock s x, (length_regBlock s x).symm ▸ hr, rfl⟩
  case ldVxMem x => obtain ⟨-, rfl⟩ := execLdVxMem_next h; exact Or.inl ⟨rfl, rfl, rfl⟩
  case ldVxK x =>
    rcases execLdVxK_next h with ⟨-, rfl⟩ | ⟨k, -, rfl⟩ <;> exact Or.inl ⟨rfl, rfl, rfl⟩
  all_goals injection h with h; subst h; exact Or.inl ⟨rfl, rfl, rfl⟩

/-- No instruction is refused. -/
theorem exec_ne_refused (i : Instr) (s : State) (r : Refusal) : exec i s ≠ .refused r := by
  cases i
  case ret => simp only [exec, execRet, attempt, raise]; split <;> simp
  case call nnn => simp only [exec, execCall, attempt, raise]; split <;> simp
  case drw x y n => simp only [exec, execDrw, attempt, raise]; split <;> simp
  case ldBVx x => simp only [exec, execLdBVx, attempt, raise]; split <;> simp
  case ldMemVx x => simp only [exec, execLdMemVx, attempt, raise]; split <;> simp
  case ldVxMem x => simp only [exec, execLdVxMem, attempt, raise]; split <;> simp
  case ldVxK x => simp only [exec, execLdVxK]; split <;> simp
  all_goals exact fun h => nomatch h

end Sys2Proof.Machine
end

