-- ==== Sys2Proof/Laws/Commands.lean ====
section
/-! SUPPORT. What the step cycle and the host commands can do, one lemma each. -/

namespace Sys2Proof.Machine

/-! ### The step cycle (R80) -/

/-- A cycle answers a next state only by running the instruction its opcode decodes to. -/
theorem cycleWith_next {run : Instr → State → StepResult} {s t : State} (h : cycleWith run s = .next t) :
    ∃ op i, fetch s = .ok op ∧ decode op = some i ∧ run i s = .next t := by
  obtain ⟨op, hf, h⟩ := attempt_next h
  split at h
  · cases h
  · exact ⟨op, _, hf, ‹_›, h⟩

/-- With a given random byte every instruction but CXNN does what `exec` does. -/
theorem execWith_of_ne {rand : Byte} {i : Instr} {s : State} (h : ∀ x nn, i ≠ .rnd x nn) :
    execWith rand i s = exec i s := by
  cases i
  case rnd x nn => exact absurd rfl (h x nn)
  all_goals rfl

/-! ### Sequences and schedules of commands (R58, R424) -/

theorem performAll_append (cs ds : List Command) (s : State) :
    (performAll (cs ++ ds) s).1 = (performAll ds (performAll cs s).1).1 := by
  induction cs generalizing s with
  | nil => rfl
  | cons c rest ih => exact ih _

/-- The state before the n-th command of a schedule is the state after its first n commands. -/
theorem stateBefore_eq_performAll (sched : Schedule) (s : State) (n : Nat) :
    stateBefore sched s n = (performAll ((List.range n).map sched) s).1 := by
  induction n with
  | zero => rfl
  | succ k ih => rw [List.range_succ, List.map_append, performAll_append, ← ih]; rfl

/-- What every command of a schedule keeps, the whole schedule keeps. -/
theorem stateBefore_keeps {P : State → Prop} {sched : Schedule} {s : State} (hs : P s) {n : Nat}
    (hkeep : ∀ k < n, P (stateBefore sched s k) → P (stateBefore sched s (k + 1))) : P (stateBefore sched s n) := by
  induction n with
  | zero => exact hs
  | succ k ih => exact hkeep k (Nat.lt_succ_self k) (ih fun j hj => hkeep j (Nat.lt_succ_of_lt hj))

/-! ### Keys (R325, R326) -/

theorem State.setKey_fin (s : State) (k : Fin 16) (down : Bool) :
    s.setKey k.val down = { s with keys := s.keys.set k.val down } := by
  simp only [State.setKey]
  congr 1
  ext j hj
  rcases eq_or_ne k.val j with rfl | hne
  · simp
  · rw [Vector.getElem_setIfInBounds_ne hj hne, Vector.getElem_set_ne (hi := k.isLt) (hj := hj) hne]

theorem State.setKey_of_gt (s : State) {k : Nat} (h : 15 < k) (down : Bool) : s.setKey k down = s := by
  have : s.keys.setIfInBounds k down = s.keys := by
    ext j hj
    rw [Vector.getElem_setIfInBounds_ne hj (by omega)]
  simp only [State.setKey, this]

/-! ### IMPORT (R407, R408) -/

theorem importState_next {r : StateRecord} {s t : State} (h : importState r s = .next t) :
    importedState r s = some t := by
  unfold importState at h
  split at h
  · cases h
  · injection h with h
    subst h
    assumption

theorem importState_of_some {r : StateRecord} {s t : State} (h : importedState r s = some t) :
    importState r s = .next t := by simp only [importState, h]

/-- What an accepted record gives, field by field. -/
theorem importedState_some {r : StateRecord} {s t : State} (h : importedState r s = some t) :
    ∃ ram v i pc stack sp dt st disp,
      r.ram.bind (checkedRam s.params.font) = some ram ∧ r.v.bind (checkedVector 8 16) = some v ∧
      r.i.bind (checkedWord 16) = some i ∧ r.pc.bind (checkedWord 16) = some pc ∧
      r.stack.bind (checkedVector 16 16) = some stack ∧ r.sp.bind checkedDepth = some sp ∧
      r.dt.bind (checkedWord 8) = some dt ∧ r.st.bind (checkedWord 8) = some st ∧
      r.disp.bind checkedGrid = some disp ∧ r.extraFields = 0 ∧
      t = { s with ram, v, i, pc, stack, sp, dt, st, disp, dispChanged := true } := by
  simp only [importedState, Option.bind_eq_bind, Option.bind_eq_some_iff] at h
  obtain ⟨ram, hram, v, hv, i, hi, pc, hpc, stack, hstack, sp, hsp, dt, hdt, st, hst, disp, hdisp, h⟩ := h
  split at h
  · injection h with h
    refine ⟨ram, v, i, pc, stack, sp, dt, st, disp, ?_⟩
    simp only [Option.bind_eq_some_iff]
    exact ⟨hram, hv, hi, hpc, hstack, hsp, hdt, hst, hdisp, ‹_›, h.symm⟩
  · cases h

/-- A record whose every check passes is accepted. -/
theorem importedState_of {r : StateRecord} {s : State} {ram v i pc stack sp dt st disp}
    (hram : r.ram.bind (checkedRam s.params.font) = some ram) (hv : r.v.bind (checkedVector 8 16) = some v)
    (hi : r.i.bind (checkedWord 16) = some i) (hpc : r.pc.bind (checkedWord 16) = some pc)
    (hstack : r.stack.bind (checkedVector 16 16) = some stack) (hsp : r.sp.bind checkedDepth = some sp)
    (hdt : r.dt.bind (checkedWord 8) = some dt) (hst : r.st.bind (checkedWord 8) = some st)
    (hdisp : r.disp.bind checkedGrid = some disp) (hextra : r.extraFields = 0) :
    importedState r s = some { s with ram, v, i, pc, stack, sp, dt, st, disp, dispChanged := true } := by
  simp only [importedState, hram, hv, hi, hpc, hstack, hsp, hdt, hst, hdisp, hextra, Option.bind_eq_bind,
    Option.bind_some, if_true]

theorem checkedRam_wf {font : Font} {l : List Nat} {m : Memory} (h : checkedRam font l = some m) :
    m.wf font = true := by
  unfold checkedRam at h
  split at h
  · injection h with h
    subst h
    exact Memory.wf_ofBytes (by simp [*])
  · cases h

end Sys2Proof.Machine
end

