-- ==== Sys2Proof/Laws/Decode.lean ====
section
/-! SUPPORT. The fields of an opcode and of the encoder's words, as numbers (R72, R74). -/

namespace Sys2Proof

theorem operandFits_reg (x : Reg) : operandFits .reg x.val = true := decide_eq_true x.isLt

theorem operandFits_byte (nn : Byte) : operandFits .byte nn.toNat = true := decide_eq_true nn.isLt

theorem operandFits_nibble (n : BitVec 4) : operandFits .nibble n.toNat = true := decide_eq_true n.isLt

theorem operandFits_addr (nnn : BitVec 12) : operandFits .addr nnn.toNat = true := decide_eq_true nnn.isLt

/-- Every instruction's operands fit their fields (R72, R73). -/
theorem Instr.wellFormed_all (i : Instr) : i.wellFormed = true := by
  cases i <;>
    simp only [Instr.wellFormed, Instr.operands, operandsFit, List.all_cons, List.all_nil, Bool.and_true,
      operandFits_reg, operandFits_byte, operandFits_nibble, operandFits_addr]

/-- Concatenation as a number: the left part is the more significant (R9). -/
theorem toNat_append_eq {m n : Nat} (a : BitVec m) (b : BitVec n) :
    (a ++ b).toNat = a.toNat * 2 ^ n + b.toNat := by
  rw [BitVec.toNat_append, ← Nat.shiftLeft_add_eq_or_of_lt b.isLt, Nat.shiftLeft_eq]

/-! ### Fields as numbers (R72) -/

theorem opFamily_toNat (op : Word) : (opFamily op).toNat = op.toNat / 4096 := by
  simp only [opFamily, BitVec.extractLsb'_toNat, Nat.shiftRight_eq_div_pow]
  omega

theorem opX_val (op : Word) : (opX op).val = op.toNat / 256 % 16 := by
  simp only [opX, BitVec.val_toFin, BitVec.extractLsb'_toNat, Nat.shiftRight_eq_div_pow]

theorem opY_val (op : Word) : (opY op).val = op.toNat / 16 % 16 := by
  simp only [opY, BitVec.val_toFin, BitVec.extractLsb'_toNat, Nat.shiftRight_eq_div_pow]

theorem opN_toNat (op : Word) : (opN op).toNat = op.toNat % 16 := by
  simp only [opN, BitVec.extractLsb'_toNat, Nat.shiftRight_zero]

theorem opNN_toNat (op : Word) : (opNN op).toNat = op.toNat % 256 := by
  simp only [opNN, BitVec.extractLsb'_toNat, Nat.shiftRight_zero]

theorem opNNN_toNat (op : Word) : (opNNN op).toNat = op.toNat % 4096 := by
  simp only [opNNN, BitVec.extractLsb'_toNat, Nat.shiftRight_zero]

/-- The big-endian opcode as a number (R53, R71). -/
theorem opcodeOf_toNat (hi lo : Byte) : (opcodeOf hi lo).toNat = 256 * hi.toNat + lo.toNat := by
  have : (opcodeOf hi lo).toNat = hi.toNat * 2 ^ 8 + lo.toNat := toNat_append_eq hi lo
  omega

/-! ### The encoder's words as numbers (R74) -/

theorem encodeNNN_toNat (f : BitVec 4) (nnn : BitVec 12) :
    (encodeNNN f nnn).toNat = f.toNat * 4096 + nnn.toNat := toNat_append_eq f nnn

theorem encodeXNN_toNat (f : BitVec 4) (x : Reg) (nn : Byte) :
    (encodeXNN f x nn).toNat = f.toNat * 4096 + x.val * 256 + nn.toNat := by
  have h1 : (encodeXNN f x nn).toNat = f.toNat * 2 ^ 12 + (regField x ++ nn).toNat := toNat_append_eq f _
  have h2 : (regField x ++ nn).toNat = x.val * 2 ^ 8 + nn.toNat := toNat_append_eq (regField x) nn
  rw [h1, h2]
  ring

theorem encodeXYN_toNat (f : BitVec 4) (x y : Reg) (n : BitVec 4) :
    (encodeXYN f x y n).toNat = f.toNat * 4096 + x.val * 256 + y.val * 16 + n.toNat := by
  have h1 : (encodeXYN f x y n).toNat = f.toNat * 2 ^ 12 + (regField x ++ (regField y ++ n)).toNat :=
    toNat_append_eq f _
  have h2 : (regField x ++ (regField y ++ n)).toNat = x.val * 2 ^ 8 + (regField y ++ n).toNat :=
    toNat_append_eq (regField x) _
  have h3 : (regField y ++ n).toNat = y.val * 2 ^ 4 + n.toNat := toNat_append_eq (regField y) n
  rw [h1, h2, h3]
  ring

/-! ### The fields of each format read back -/

@[simp] theorem opFamily_encodeNNN (f : BitVec 4) (nnn : BitVec 12) : opFamily (encodeNNN f nnn) = f := by
  apply BitVec.eq_of_toNat_eq
  rw [opFamily_toNat, encodeNNN_toNat]
  omega

@[simp] theorem opNNN_encodeNNN (f : BitVec 4) (nnn : BitVec 12) : opNNN (encodeNNN f nnn) = nnn := by
  apply BitVec.eq_of_toNat_eq
  rw [opNNN_toNat, encodeNNN_toNat]
  omega

@[simp] theorem opFamily_encodeXNN (f : BitVec 4) (x : Reg) (nn : Byte) : opFamily (encodeXNN f x nn) = f := by
  apply BitVec.eq_of_toNat_eq
  rw [opFamily_toNat, encodeXNN_toNat]
  omega

@[simp] theorem opX_encodeXNN (f : BitVec 4) (x : Reg) (nn : Byte) : opX (encodeXNN f x nn) = x := by
  apply Fin.ext
  rw [opX_val, encodeXNN_toNat]
  omega

@[simp] theorem opNN_encodeXNN (f : BitVec 4) (x : Reg) (nn : Byte) : opNN (encodeXNN f x nn) = nn := by
  apply BitVec.eq_of_toNat_eq
  rw [opNN_toNat, encodeXNN_toNat]
  omega

@[simp] theorem opFamily_encodeXYN (f : BitVec 4) (x y : Reg) (n : BitVec 4) :
    opFamily (encodeXYN f x y n) = f := by
  apply BitVec.eq_of_toNat_eq
  rw [opFamily_toNat, encodeXYN_toNat]
  omega

@[simp] theorem opX_encodeXYN (f : BitVec 4) (x y : Reg) (n : BitVec 4) : opX (encodeXYN f x y n) = x := by
  apply Fin.ext
  rw [opX_val, encodeXYN_toNat]
  omega

@[simp] theorem opY_encodeXYN (f : BitVec 4) (x y : Reg) (n : BitVec 4) : opY (encodeXYN f x y n) = y := by
  apply Fin.ext
  rw [opY_val, encodeXYN_toNat]
  omega

@[simp] theorem opN_encodeXYN (f : BitVec 4) (x y : Reg) (n : BitVec 4) : opN (encodeXYN f x y n) = n := by
  apply BitVec.eq_of_toNat_eq
  rw [opN_toNat, encodeXYN_toNat]
  omega

/-! ### Masks (R77) -/

theorem encodeNNN_bit (f : BitVec 4) (nnn : BitVec 12) (k : Nat) :
    (encodeNNN f nnn).getLsbD k = if k < 12 then nnn.getLsbD k else f.getLsbD (k - 12) :=
  BitVec.getLsbD_append

theorem encodeXNN_bit (f : BitVec 4) (x : Reg) (nn : Byte) (k : Nat) :
    (encodeXNN f x nn).getLsbD k =
      if k < 12 then (if k < 8 then nn.getLsbD k else (regField x).getLsbD (k - 8)) else f.getLsbD (k - 12) := by
  have h : (encodeXNN f x nn).getLsbD k =
      if k < 12 then (regField x ++ nn).getLsbD k else f.getLsbD (k - 12) := BitVec.getLsbD_append
  rw [h, BitVec.getLsbD_append]

theorem encodeXYN_bit (f : BitVec 4) (x y : Reg) (n : BitVec 4) (k : Nat) :
    (encodeXYN f x y n).getLsbD k =
      if k < 12 then
        (if k < 8 then (if k < 4 then n.getLsbD k else (regField y).getLsbD (k - 4)) else (regField x).getLsbD (k - 8))
      else f.getLsbD (k - 12) := by
  have h : (encodeXYN f x y n).getLsbD k =
      if k < 12 then (regField x ++ (regField y ++ n)).getLsbD k else f.getLsbD (k - 12) := BitVec.getLsbD_append
  have h' : (regField x ++ (regField y ++ n)).getLsbD k =
      if k < 8 then (regField y ++ n).getLsbD k else (regField x).getLsbD (k - 8) := BitVec.getLsbD_append
  rw [h, h', BitVec.getLsbD_append]

/-- `op & 0xF000` keeps the family. -/
theorem mask_family (op : Word) : op &&& 0xF000#16 = encodeNNN (opFamily op) 0#12 := by
  apply BitVec.eq_of_getLsbD_eq
  intro k hk
  rw [encodeNNN_bit, BitVec.getLsbD_and]
  interval_cases k <;> simp [opFamily]

/-- `op & 0xF00F` keeps the family and the low nibble. -/
theorem mask_family_nibble (op : Word) : op &&& 0xF00F#16 = encodeXYN (opFamily op) 0 0 (opN op) := by
  apply BitVec.eq_of_getLsbD_eq
  intro k hk
  rw [encodeXYN_bit, BitVec.getLsbD_and]
  interval_cases k <;> simp [opFamily, opN, regField]

/-- `op & 0xF0FF` keeps the family and the low byte. -/
theorem mask_family_byte (op : Word) : op &&& 0xF0FF#16 = encodeXNN (opFamily op) 0 (opNN op) := by
  apply BitVec.eq_of_getLsbD_eq
  intro k hk
  rw [encodeXNN_bit, BitVec.getLsbD_and]
  interval_cases k <;> simp [opFamily, opNN, regField]

/-- A row of mask 0xF000 selects the opcodes of its family. -/
theorem and_F000_iff (op : Word) (f : BitVec 4) : op &&& 0xF000#16 = encodeNNN f 0#12 ↔ opFamily op = f := by
  rw [mask_family]
  exact ⟨fun h => by simpa using congrArg opFamily h, fun h => by rw [h]⟩

/-- A row of mask 0xF00F selects the opcodes of its family and low nibble. -/
theorem and_F00F_iff (op : Word) (f n : BitVec 4) :
    op &&& 0xF00F#16 = encodeXYN f 0 0 n ↔ opFamily op = f ∧ opN op = n := by
  rw [mask_family_nibble]
  refine ⟨fun h => ⟨?_, ?_⟩, fun h => by rw [h.1, h.2]⟩
  · simpa using congrArg opFamily h
  · simpa using congrArg opN h

/-- A row of mask 0xF0FF selects the opcodes of its family and low byte. -/
theorem and_F0FF_iff (op : Word) (f : BitVec 4) (nn : Byte) :
    op &&& 0xF0FF#16 = encodeXNN f 0 nn ↔ opFamily op = f ∧ opNN op = nn := by
  rw [mask_family_byte]
  refine ⟨fun h => ⟨?_, ?_⟩, fun h => by rw [h.1, h.2]⟩
  · simpa using congrArg opFamily h
  · simpa using congrArg opNN h

/-- The two bytes of an opcode give it back (R53). -/
@[simp] theorem opcodeOf_bytes (op : Word) : opcodeOf (op.extractLsb' 8 8) (op.extractLsb' 0 8) = op := by
  apply BitVec.eq_of_toNat_eq
  simp only [opcodeOf_toNat, BitVec.extractLsb'_toNat, Nat.shiftRight_eq_div_pow]
  omega

/-- The bytes of an opcode decode as the opcode does, with the bytes after them left over (R70). -/
theorem decodeBytes_opcodeBytes_some {op : Word} {i : Instr} (h : decode op = some i) (rest : List Byte) :
    decodeBytes (opcodeBytes op ++ rest) = .ok (i, rest) := by
  simp only [opcodeBytes, List.cons_append, List.nil_append, decodeBytes, opcodeOf_bytes, h]

theorem decodeBytes_opcodeBytes_none {op : Word} (h : decode op = none) (rest : List Byte) :
    decodeBytes (opcodeBytes op ++ rest) = .error (.invalidOpcode op) := by
  simp only [opcodeBytes, List.cons_append, List.nil_append, decodeBytes, opcodeOf_bytes, h]

end Sys2Proof
end

