-- ==== Sys2Proof/Laws/Display.lean ====
section
/-! SUPPORT. Pixels after each display operation, and what drawing a sprite toggles (R172 to R175). -/

namespace Sys2Proof.Machine

/-! ### Single pixels (R331) -/

@[simp] theorem getPixel_clearGrid (x y : Nat) : getPixel clearGrid x y = false := by
  simp [getPixel, clearGrid]

theorem getPixel_setPixel (d : Grid) (x y px py : Nat) (b : Bool) :
    getPixel (setPixel d x y b) px py =
      if x % 64 = px % 64 ∧ y % 32 = py % 32 then b else getPixel d px py := by
  simp only [getPixel, setPixel, Vector.getElem_set]
  by_cases hx : x % 64 = px % 64
  · by_cases hy : y % 32 = py % 32
    · simp [hx, hy]
    · simp [hx, hy]
  · simp [hx]

theorem getPixel_flipPixel (d : Grid) (x y px py : Nat) :
    getPixel (flipPixel d x y) px py =
      if x % 64 = px % 64 ∧ y % 32 = py % 32 then !getPixel d px py else getPixel d px py := by
  rw [flipPixel, getPixel_setPixel]
  split
  · rename_i h
    simp only [getPixel, h.1, h.2]
  · rfl

/-- Grids that agree on every pixel are equal. -/
theorem grid_ext {d e : Grid} (h : ∀ px < 64, ∀ py < 32, getPixel d px py = getPixel e px py) : d = e := by
  apply Vector.ext
  intro x hx
  apply Vector.ext
  intro y hy
  have := h x hx y hy
  simpa only [getPixel, Nat.mod_eq_of_lt hx, Nat.mod_eq_of_lt hy] using this

/-! ### What a drawing does -/

/-- Drawing took canvas `c` to `c'` by toggling exactly the pixels of `H`, and the flag says whether one of them was lit
(R172, R175). -/
structure Toggles (H : Nat → Nat → Prop) (c c' : Canvas) : Prop where
  hit : ∀ px < 64, ∀ py < 32, H px py → getPixel c'.1 px py = !getPixel c.1 px py
  miss : ∀ px < 64, ∀ py < 32, ¬ H px py → getPixel c'.1 px py = getPixel c.1 px py
  flag : c'.2 = true ↔ c.2 = true ∨ ∃ px < 64, ∃ py < 32, H px py ∧ getPixel c.1 px py = true

theorem Toggles.none {H : Nat → Nat → Prop} (c : Canvas) (h : ∀ px py, ¬ H px py) : Toggles H c c where
  hit := fun px _ py _ hp => absurd hp (h px py)
  miss := fun _ _ _ _ _ => rfl
  flag := by simp [h]

/-- Two drawings that toggle no pixel in common, one after the other. -/
theorem Toggles.trans {H K : Nat → Nat → Prop} {c c' c'' : Canvas} (h : Toggles H c c') (k : Toggles K c' c'')
    (hk : ∀ px < 64, ∀ py < 32, H px py → ¬ K px py) : Toggles (fun px py => H px py ∨ K px py) c c'' where
  hit := by
    intro px hx py hy hor
    by_cases hH : H px py
    · rw [k.miss px hx py hy (hk px hx py hy hH), h.hit px hx py hy hH]
    · rw [k.hit px hx py hy (hor.resolve_left hH), h.miss px hx py hy hH]
  miss := by
    intro px hx py hy hnot
    rw [k.miss px hx py hy (fun hp => hnot (Or.inr hp)), h.miss px hx py hy (fun hp => hnot (Or.inl hp))]
  flag := by
    rw [k.flag, h.flag, or_assoc]
    refine or_congr_right ⟨?_, ?_⟩
    · rintro (⟨px, hx, py, hy, hp, hl⟩ | ⟨px, hx, py, hy, hp, hl⟩)
      · exact ⟨px, hx, py, hy, Or.inl hp, hl⟩
      · have hnH : ¬ H px py := fun hH => hk px hx py hy hH hp
        exact ⟨px, hx, py, hy, Or.inr hp, by rw [← h.miss px hx py hy hnH]; exact hl⟩
    · rintro ⟨px, hx, py, hy, hp, hl⟩
      by_cases hH : H px py
      · exact Or.inl ⟨px, hx, py, hy, hH, hl⟩
      · exact Or.inr ⟨px, hx, py, hy, hp.resolve_left hH, by rw [h.miss px hx py hy hH]; exact hl⟩

theorem Toggles.congr {H K : Nat → Nat → Prop} {c c' : Canvas} (h : Toggles H c c')
    (hk : ∀ px py, H px py ↔ K px py) : Toggles K c c' := by
  have : H = K := funext fun px => funext fun py => propext (hk px py)
  exact this ▸ h

/-- One pixel: a 1 bit toggles it, a 0 bit leaves it. -/
theorem toggles_plotBit (bit : Bool) (x y : Nat) (c : Canvas) :
    Toggles (fun px py => bit = true ∧ px = x % 64 ∧ py = y % 32) c (plotBit bit x y c) := by
  cases bit with
  | false => exact Toggles.none c (by simp)
  | true =>
    refine ⟨?_, ?_, ?_⟩
    · rintro px hx py hy ⟨-, rfl, rfl⟩
      simp [plotBit, getPixel_flipPixel]
    · intro px hx py hy hnot
      simp only [plotBit, if_true, getPixel_flipPixel]
      rw [if_neg]
      rintro ⟨h1, h2⟩
      exact hnot ⟨rfl, by omega, by omega⟩
    · have hpix : getPixel c.1 (x % 64) (y % 32) = getPixel c.1 x y := by simp [getPixel]
      simp only [plotBit, if_true, Bool.or_eq_true]
      refine or_congr_right ⟨fun h => ?_, ?_⟩
      · exact ⟨x % 64, Nat.mod_lt _ (by decide), y % 32, Nat.mod_lt _ (by decide), ⟨trivial, rfl, rfl⟩, hpix.trans h⟩
      · rintro ⟨px, hx, py, hy, ⟨-, rfl, rfl⟩, hl⟩
        exact hpix.symm.trans hl

/-- The first `n` columns of a row toggle the pixels of its 1 bits: no pixel twice, since the columns are distinct modulo 64. -/
theorem toggles_drawColumns (row : Byte) (x0 y : Nat) {n : Nat} (hn : n ≤ 64) (c : Canvas) :
    Toggles (fun px py => ∃ k < n, spriteBit row k = true ∧ px = (x0 + k) % 64 ∧ py = y % 32) c
      (drawColumns row x0 y n c) := by
  induction n with
  | zero => exact Toggles.none c (by simp)
  | succ n ih =>
    refine ((ih (by omega)).trans (toggles_plotBit (spriteBit row n) (x0 + n) y _) ?_).congr ?_
    · rintro px hx py hy ⟨k, hk, -, hpx, -⟩ ⟨-, hpx', -⟩
      omega
    · intro px py
      constructor
      · rintro (⟨k, hk, hb, hpx, hpy⟩ | ⟨hb, hpx, hpy⟩)
        · exact ⟨k, by omega, hb, hpx, hpy⟩
        · exact ⟨n, by omega, hb, hpx, hpy⟩
      · rintro ⟨k, hk, hb, hpx, hpy⟩
        rcases Nat.lt_or_ge k n with hlt | hge
        · exact Or.inl ⟨k, hlt, hb, hpx, hpy⟩
        · obtain rfl : k = n := by omega
          exact Or.inr ⟨hb, hpx, hpy⟩

/-- The rows of a sprite toggle the pixels of their 1 bits: no pixel twice, since the rows are distinct modulo 32. -/
theorem toggles_drawRows (rows : List Byte) (x0 y : Nat) (hlen : rows.length ≤ 32) (c : Canvas) :
    Toggles (fun px py => ∃ r row, rows[r]? = some row ∧ ∃ k < 8, spriteBit row k = true ∧
      px = (x0 + k) % 64 ∧ py = (y + r) % 32) c (drawRows rows x0 y c) := by
  induction rows generalizing y c with
  | nil => exact Toggles.none c (by simp)
  | cons row rest ih =>
    simp only [List.length_cons] at hlen
    refine ((toggles_drawColumns row x0 y (by decide) c).trans (ih (y + 1) (by omega) _) ?_).congr ?_
    · rintro px hx py hy ⟨k, hk, -, -, hpy⟩ ⟨r, row', hr, k', hk', -, -, hpy'⟩
      have : r < rest.length := (List.getElem?_eq_some_iff.mp hr).1
      omega
    · intro px py
      constructor
      · rintro (⟨k, hk, hb, hpx, hpy⟩ | ⟨r, row', hr, k, hk, hb, hpx, hpy⟩)
        · exact ⟨0, row, by simp, k, hk, hb, hpx, by simpa using hpy⟩
        · exact ⟨r + 1, row', by simpa using hr, k, hk, hb, hpx, by rw [hpy]; congr 1; omega⟩
      · rintro ⟨r, row', hr, k, hk, hb, hpx, hpy⟩
        cases r with
        | zero =>
          obtain rfl : row = row' := by simpa using hr
          exact Or.inl ⟨k, hk, hb, hpx, by simpa using hpy⟩
        | succ r =>
          exact Or.inr ⟨r, row', by simpa using hr, k, hk, hb, hpx, by rw [hpy]; congr 1; omega⟩

/-- Drawing a sprite of up to 32 rows: exactly its 1 bits toggle, both coordinates wrapping, and the flag is a collision
(R172 to R175). -/
theorem toggles_drawSprite (rows : List Byte) (x0 y0 : Nat) (hlen : rows.length ≤ 32) (d : Grid) :
    Toggles (fun px py => ∃ r row, rows[r]? = some row ∧ ∃ k < 8, spriteBit row k = true ∧
      px = (x0 + k) % 64 ∧ py = (y0 + r) % 32) (d, false) (drawSprite rows x0 y0 d) :=
  toggles_drawRows rows x0 y0 hlen (d, false)

end Sys2Proof.Machine
end

