-- ==== Sys2Proof/Laws/PerInstr.lean ====
section
/-! SUPPORT. Per instruction: it is well formed, and its opcode is selected by its own row of the opcode map (R77). -/

namespace Sys2Proof.Laws.EncodeRow

/-- The instruction's operands fit, and the row of R77 with its mnemonic selects its opcode. -/
def Statement (i : Instr) : Prop :=
  i.wellFormed = true ∧ ∃ row ∈ opcodeMap, row.mnemonic = i.mnemonic ∧ encode i &&& row.mask = row.pattern

/-- A row of the map with the instruction's mnemonic that selects its opcode is enough. -/
theorem of_row {i : Instr} (row : OpcodeRow) (hmem : row ∈ opcodeMap) (hname : row.mnemonic = i.mnemonic)
    (hsel : encode i &&& row.mask = row.pattern) : Statement i :=
  ⟨i.wellFormed_all, row, hmem, hname, hsel⟩

theorem cls : Statement (.cls) :=
  of_row ⟨"CLS", 0x00E0#16, 0xFFFF#16⟩ (by simp [opcodeMap, opcodeRowsLow, opcodeRowsMid, opcodeRowsHigh]) rfl
    (rfl)

theorem ret : Statement (.ret) :=
  of_row ⟨"RET", 0x00EE#16, 0xFFFF#16⟩ (by simp [opcodeMap, opcodeRowsLow, opcodeRowsMid, opcodeRowsHigh]) rfl
    (rfl)

theorem jp (nnn : BitVec 12) : Statement (.jp nnn) :=
  of_row ⟨"JP", 0x1000#16, 0xF000#16⟩ (by simp [opcodeMap, opcodeRowsLow, opcodeRowsMid, opcodeRowsHigh]) rfl
    ((and_F000_iff _ 0x1#4).mpr (by simp [encode]))

theorem call (nnn : BitVec 12) : Statement (.call nnn) :=
  of_row ⟨"CALL", 0x2000#16, 0xF000#16⟩ (by simp [opcodeMap, opcodeRowsLow, opcodeRowsMid, opcodeRowsHigh]) rfl
    ((and_F000_iff _ 0x2#4).mpr (by simp [encode]))

theorem seImm (x : Reg) (nn : Byte) : Statement (.seImm x nn) :=
  of_row ⟨"SE_IMM", 0x3000#16, 0xF000#16⟩ (by simp [opcodeMap, opcodeRowsLow, opcodeRowsMid, opcodeRowsHigh]) rfl
    ((and_F000_iff _ 0x3#4).mpr (by simp [encode]))

theorem sneImm (x : Reg) (nn : Byte) : Statement (.sneImm x nn) :=
  of_row ⟨"SNE_IMM", 0x4000#16, 0xF000#16⟩ (by simp [opcodeMap, opcodeRowsLow, opcodeRowsMid, opcodeRowsHigh]) rfl
    ((and_F000_iff _ 0x4#4).mpr (by simp [encode]))

theorem seReg (x : Reg) (y : Reg) : Statement (.seReg x y) :=
  of_row ⟨"SE_REG", 0x5000#16, 0xF00F#16⟩ (by simp [opcodeMap, opcodeRowsLow, opcodeRowsMid, opcodeRowsHigh]) rfl
    ((and_F00F_iff _ 0x5#4 0x0#4).mpr (by simp [encode]))

theorem ldImm (x : Reg) (nn : Byte) : Statement (.ldImm x nn) :=
  of_row ⟨"LD_IMM", 0x6000#16, 0xF000#16⟩ (by simp [opcodeMap, opcodeRowsLow, opcodeRowsMid, opcodeRowsHigh]) rfl
    ((and_F000_iff _ 0x6#4).mpr (by simp [encode]))

theorem addImm (x : Reg) (nn : Byte) : Statement (.addImm x nn) :=
  of_row ⟨"ADD_IMM", 0x7000#16, 0xF000#16⟩ (by simp [opcodeMap, opcodeRowsLow, opcodeRowsMid, opcodeRowsHigh]) rfl
    ((and_F000_iff _ 0x7#4).mpr (by simp [encode]))

theorem ldReg (x : Reg) (y : Reg) : Statement (.ldReg x y) :=
  of_row ⟨"LD_REG", 0x8000#16, 0xF00F#16⟩ (by simp [opcodeMap, opcodeRowsLow, opcodeRowsMid, opcodeRowsHigh]) rfl
    ((and_F00F_iff _ 0x8#4 0x0#4).mpr (by simp [encode]))

theorem orReg (x : Reg) (y : Reg) : Statement (.orReg x y) :=
  of_row ⟨"OR", 0x8001#16, 0xF00F#16⟩ (by simp [opcodeMap, opcodeRowsLow, opcodeRowsMid, opcodeRowsHigh]) rfl
    ((and_F00F_iff _ 0x8#4 0x1#4).mpr (by simp [encode]))

theorem andReg (x : Reg) (y : Reg) : Statement (.andReg x y) :=
  of_row ⟨"AND", 0x8002#16, 0xF00F#16⟩ (by simp [opcodeMap, opcodeRowsLow, opcodeRowsMid, opcodeRowsHigh]) rfl
    ((and_F00F_iff _ 0x8#4 0x2#4).mpr (by simp [encode]))

theorem xorReg (x : Reg) (y : Reg) : Statement (.xorReg x y) :=
  of_row ⟨"XOR", 0x8003#16, 0xF00F#16⟩ (by simp [opcodeMap, opcodeRowsLow, opcodeRowsMid, opcodeRowsHigh]) rfl
    ((and_F00F_iff _ 0x8#4 0x3#4).mpr (by simp [encode]))

theorem addReg (x : Reg) (y : Reg) : Statement (.addReg x y) :=
  of_row ⟨"ADD_REG", 0x8004#16, 0xF00F#16⟩ (by simp [opcodeMap, opcodeRowsLow, opcodeRowsMid, opcodeRowsHigh]) rfl
    ((and_F00F_iff _ 0x8#4 0x4#4).mpr (by simp [encode]))

theorem sub (x : Reg) (y : Reg) : Statement (.sub x y) :=
  of_row ⟨"SUB", 0x8005#16, 0xF00F#16⟩ (by simp [opcodeMap, opcodeRowsLow, opcodeRowsMid, opcodeRowsHigh]) rfl
    ((and_F00F_iff _ 0x8#4 0x5#4).mpr (by simp [encode]))

theorem shr (x : Reg) (y : Reg) : Statement (.shr x y) :=
  of_row ⟨"SHR", 0x8006#16, 0xF00F#16⟩ (by simp [opcodeMap, opcodeRowsLow, opcodeRowsMid, opcodeRowsHigh]) rfl
    ((and_F00F_iff _ 0x8#4 0x6#4).mpr (by simp [encode]))

theorem subn (x : Reg) (y : Reg) : Statement (.subn x y) :=
  of_row ⟨"SUBN", 0x8007#16, 0xF00F#16⟩ (by simp [opcodeMap, opcodeRowsLow, opcodeRowsMid, opcodeRowsHigh]) rfl
    ((and_F00F_iff _ 0x8#4 0x7#4).mpr (by simp [encode]))

theorem shl (x : Reg) (y : Reg) : Statement (.shl x y) :=
  of_row ⟨"SHL", 0x800E#16, 0xF00F#16⟩ (by simp [opcodeMap, opcodeRowsLow, opcodeRowsMid, opcodeRowsHigh]) rfl
    ((and_F00F_iff _ 0x8#4 0xE#4).mpr (by simp [encode]))

theorem sneReg (x : Reg) (y : Reg) : Statement (.sneReg x y) :=
  of_row ⟨"SNE_REG", 0x9000#16, 0xF00F#16⟩ (by simp [opcodeMap, opcodeRowsLow, opcodeRowsMid, opcodeRowsHigh]) rfl
    ((and_F00F_iff _ 0x9#4 0x0#4).mpr (by simp [encode]))

theorem ldI (nnn : BitVec 12) : Statement (.ldI nnn) :=
  of_row ⟨"LD_I", 0xA000#16, 0xF000#16⟩ (by simp [opcodeMap, opcodeRowsLow, opcodeRowsMid, opcodeRowsHigh]) rfl
    ((and_F000_iff _ 0xA#4).mpr (by simp [encode]))

theorem jpV0 (nnn : BitVec 12) : Statement (.jpV0 nnn) :=
  of_row ⟨"JP_V0", 0xB000#16, 0xF000#16⟩ (by simp [opcodeMap, opcodeRowsLow, opcodeRowsMid, opcodeRowsHigh]) rfl
    ((and_F000_iff _ 0xB#4).mpr (by simp [encode]))

theorem rnd (x : Reg) (nn : Byte) : Statement (.rnd x nn) :=
  of_row ⟨"RND", 0xC000#16, 0xF000#16⟩ (by simp [opcodeMap, opcodeRowsLow, opcodeRowsMid, opcodeRowsHigh]) rfl
    ((and_F000_iff _ 0xC#4).mpr (by simp [encode]))

theorem drw (x : Reg) (y : Reg) (n : BitVec 4) : Statement (.drw x y n) :=
  of_row ⟨"DRW", 0xD000#16, 0xF000#16⟩ (by simp [opcodeMap, opcodeRowsLow, opcodeRowsMid, opcodeRowsHigh]) rfl
    ((and_F000_iff _ 0xD#4).mpr (by simp [encode]))

theorem skp (x : Reg) : Statement (.skp x) :=
  of_row ⟨"SKP", 0xE09E#16, 0xF0FF#16⟩ (by simp [opcodeMap, opcodeRowsLow, opcodeRowsMid, opcodeRowsHigh]) rfl
    ((and_F0FF_iff _ 0xE#4 0x9E#8).mpr (by simp [encode]))

theorem sknp (x : Reg) : Statement (.sknp x) :=
  of_row ⟨"SKNP", 0xE0A1#16, 0xF0FF#16⟩ (by simp [opcodeMap, opcodeRowsLow, opcodeRowsMid, opcodeRowsHigh]) rfl
    ((and_F0FF_iff _ 0xE#4 0xA1#8).mpr (by simp [encode]))

theorem ldVxDt (x : Reg) : Statement (.ldVxDt x) :=
  of_row ⟨"LD_VX_DT", 0xF007#16, 0xF0FF#16⟩ (by simp [opcodeMap, opcodeRowsLow, opcodeRowsMid, opcodeRowsHigh]) rfl
    ((and_F0FF_iff _ 0xF#4 0x07#8).mpr (by simp [encode]))

theorem ldVxK (x : Reg) : Statement (.ldVxK x) :=
  of_row ⟨"LD_VX_K", 0xF00A#16, 0xF0FF#16⟩ (by simp [opcodeMap, opcodeRowsLow, opcodeRowsMid, opcodeRowsHigh]) rfl
    ((and_F0FF_iff _ 0xF#4 0x0A#8).mpr (by simp [encode]))

theorem ldDtVx (x : Reg) : Statement (.ldDtVx x) :=
  of_row ⟨"LD_DT_VX", 0xF015#16, 0xF0FF#16⟩ (by simp [opcodeMap, opcodeRowsLow, opcodeRowsMid, opcodeRowsHigh]) rfl
    ((and_F0FF_iff _ 0xF#4 0x15#8).mpr (by simp [encode]))

theorem ldStVx (x : Reg) : Statement (.ldStVx x) :=
  of_row ⟨"LD_ST_VX", 0xF018#16, 0xF0FF#16⟩ (by simp [opcodeMap, opcodeRowsLow, opcodeRowsMid, opcodeRowsHigh]) rfl
    ((and_F0FF_iff _ 0xF#4 0x18#8).mpr (by simp [encode]))

theorem addIVx (x : Reg) : Statement (.addIVx x) :=
  of_row ⟨"ADD_I_VX", 0xF01E#16, 0xF0FF#16⟩ (by simp [opcodeMap, opcodeRowsLow, opcodeRowsMid, opcodeRowsHigh]) rfl
    ((and_F0FF_iff _ 0xF#4 0x1E#8).mpr (by simp [encode]))

theorem ldFVx (x : Reg) : Statement (.ldFVx x) :=
  of_row ⟨"LD_F_VX", 0xF029#16, 0xF0FF#16⟩ (by simp [opcodeMap, opcodeRowsLow, opcodeRowsMid, opcodeRowsHigh]) rfl
    ((and_F0FF_iff _ 0xF#4 0x29#8).mpr (by simp [encode]))

theorem ldBVx (x : Reg) : Statement (.ldBVx x) :=
  of_row ⟨"LD_B_VX", 0xF033#16, 0xF0FF#16⟩ (by simp [opcodeMap, opcodeRowsLow, opcodeRowsMid, opcodeRowsHigh]) rfl
    ((and_F0FF_iff _ 0xF#4 0x33#8).mpr (by simp [encode]))

theorem ldMemVx (x : Reg) : Statement (.ldMemVx x) :=
  of_row ⟨"LD_MEM_VX", 0xF055#16, 0xF0FF#16⟩ (by simp [opcodeMap, opcodeRowsLow, opcodeRowsMid, opcodeRowsHigh]) rfl
    ((and_F0FF_iff _ 0xF#4 0x55#8).mpr (by simp [encode]))

theorem ldVxMem (x : Reg) : Statement (.ldVxMem x) :=
  of_row ⟨"LD_VX_MEM", 0xF065#16, 0xF0FF#16⟩ (by simp [opcodeMap, opcodeRowsLow, opcodeRowsMid, opcodeRowsHigh]) rfl
    ((and_F0FF_iff _ 0xF#4 0x65#8).mpr (by simp [encode]))

end Sys2Proof.Laws.EncodeRow
end

