-- ==== Sys2Proof/Tests/Slice0.lean ====
section
/-! SUPPORT. Small tests: ill-formed operands, one word a row of 30_encoding.md R77, one step an instruction with the results
95_test_vectors.md gives (the vector's id stands before each), and a witness for each obligation's hypotheses. -/

namespace Sys2Proof.Tests

open Sys2Proof.Machine

/-! ### Well-formedness (30_encoding.md R72, R73) -/

theorem test_reg_16_ill_formed : operandsFit [(.reg, 16)] = false := by decide
theorem test_byte_256_ill_formed : operandsFit [(.reg, 3), (.byte, 256)] = false := by decide
theorem test_nibble_16_ill_formed : operandsFit [(.reg, 1), (.reg, 2), (.nibble, 16)] = false := by decide
theorem test_addr_4096_ill_formed : operandsFit [(.addr, 4096)] = false := by decide
theorem test_largest_operands_well_formed :
    operandsFit [(.reg, 15), (.byte, 255), (.nibble, 15), (.addr, 4095)] = true := by decide
theorem test_instr_well_formed : (Instr.drw 15 15 0xF#4).wellFormed = true := by decide

/-! ### Decoding, one word a row, written out from R74 and R77 -/

theorem test_decode_cls : decodeTableWord 16 0x00E0 = some .cls := by decide
theorem test_decode_ret : decodeTableWord 16 0x00EE = some .ret := by decide
theorem test_decode_jp : decodeTableWord 16 0x1FED = some (.jp 0xFED#12) := by decide
theorem test_decode_call : decodeTableWord 16 0x2ABC = some (.call 0xABC#12) := by decide
theorem test_decode_seImm : decodeTableWord 16 0x3A5C = some (.seImm 10 0x5C#8) := by decide
theorem test_decode_sneImm : decodeTableWord 16 0x4BC3 = some (.sneImm 11 0xC3#8) := by decide
theorem test_decode_seReg : decodeTableWord 16 0x5120 = some (.seReg 1 2) := by decide
theorem test_decode_ldImm : decodeTableWord 16 0x6A42 = some (.ldImm 10 0x42#8) := by decide
theorem test_decode_addImm : decodeTableWord 16 0x7205 = some (.addImm 2 0x05#8) := by decide
theorem test_decode_ldReg : decodeTableWord 16 0x8F10 = some (.ldReg 15 1) := by decide
theorem test_decode_orReg : decodeTableWord 16 0x8231 = some (.orReg 2 3) := by decide
theorem test_decode_andReg : decodeTableWord 16 0x8452 = some (.andReg 4 5) := by decide
theorem test_decode_xorReg : decodeTableWord 16 0x8673 = some (.xorReg 6 7) := by decide
theorem test_decode_addReg : decodeTableWord 16 0x8894 = some (.addReg 8 9) := by decide
theorem test_decode_sub : decodeTableWord 16 0x8AB5 = some (.sub 10 11) := by decide
theorem test_decode_shr : decodeTableWord 16 0x8CD6 = some (.shr 12 13) := by decide
theorem test_decode_subn : decodeTableWord 16 0x8AB7 = some (.subn 10 11) := by decide
theorem test_decode_shl : decodeTableWord 16 0x8EFE = some (.shl 14 15) := by decide
theorem test_decode_sneReg : decodeTableWord 16 0x9AB0 = some (.sneReg 10 11) := by decide
theorem test_decode_ldI : decodeTableWord 16 0xA123 = some (.ldI 0x123#12) := by decide
theorem test_decode_jpV0 : decodeTableWord 16 0xB300 = some (.jpV0 0x300#12) := by decide
theorem test_decode_rnd : decodeTableWord 16 0xC30F = some (.rnd 3 0x0F#8) := by decide
theorem test_decode_drw : decodeTableWord 16 0xD125 = some (.drw 1 2 0x5#4) := by decide
theorem test_decode_skp : decodeTableWord 16 0xE59E = some (.skp 5) := by decide
theorem test_decode_sknp : decodeTableWord 16 0xE6A1 = some (.sknp 6) := by decide
theorem test_decode_ldVxDt : decodeTableWord 16 0xF307 = some (.ldVxDt 3) := by decide
theorem test_decode_ldVxK : decodeTableWord 16 0xF30A = some (.ldVxK 3) := by decide
theorem test_decode_ldDtVx : decodeTableWord 16 0xF415 = some (.ldDtVx 4) := by decide
theorem test_decode_ldStVx : decodeTableWord 16 0xF518 = some (.ldStVx 5) := by decide
theorem test_decode_addIVx : decodeTableWord 16 0xF61E = some (.addIVx 6) := by decide
theorem test_decode_ldFVx : decodeTableWord 16 0xF429 = some (.ldFVx 4) := by decide
theorem test_decode_ldBVx : decodeTableWord 16 0xF533 = some (.ldBVx 5) := by decide
theorem test_decode_ldMemVx : decodeTableWord 16 0xF155 = some (.ldMemVx 1) := by decide
theorem test_decode_ldVxMem : decodeTableWord 16 0xFF65 = some (.ldVxMem 15) := by decide

/-- V-E2 to V-E9: words that match no row. -/
theorem test_decode_invalid :
    [0x0000, 0x01E0, 0x00E1, 0x0342, 0x5121, 0x912F, 0x8128, 0x812F, 0xE19F, 0xF175, 0x00FF].map (decodeTableWord 16) =
      List.replicate 11 none := by decide

/-- Bytes are taken in pairs; a lone byte is refused by name, an invalid opcode too. -/
theorem test_decode_bytes :
    decodeBytes [0xA2#8, 0x2A#8, 0x77#8] = .ok (.ldI 0x22A#12, [0x77#8]) ∧
    decodeBytes [0xA2#8] = .error .truncated ∧
    decodeBytes [0x00#8, 0x00#8] = .error (.invalidOpcode 0#16) := by decide

/-! ### One step of each instruction -/

/-- One step from a state whose next instruction word is `op`. -/
def stepOp (op : Nat) (s : State) : StepResult := step (s.withFetchWord 16 op)

/-- What the next state shows, if there is one. -/
def shown {α : Type} (r : StepResult) (view : State → α) : Option α :=
  match r with
  | .next t => some (view t)
  | _ => none

/-- The fault a result is, if it is one. -/
def faultOf (r : StepResult) : Option Fault :=
  match r with
  | .fault f => some f
  | _ => none

/-- The power-on state with some registers set. -/
def regs (vs : List (Reg × Byte)) : State := vs.foldl (fun s p => s.setV p.1 p.2) State.reset

/-- L1-2, V-C2. -/
theorem test_step_cls :
    shown (stepOp 0x00E0 { State.reset with disp := flipPixel clearGrid 10 5, dispChanged := false })
      (fun t => (getPixel t.disp 10 5, t.dispChanged, t.pc)) = some (false, true, 0x202#16) := by decide +kernel

/-- V-C8: the top entry is the one at SP - 1, and it is kept. -/
theorem test_step_ret :
    shown (stepOp 0x00EE { State.reset with sp := 3, stack := State.reset.stack.set 2 0x0ABC#16 })
      (fun t => (t.pc, t.sp, t.stack[2])) = some (0xABC#16, 2, 0xABC#16) := by decide
/-- V-C6. -/
theorem test_step_ret_empty :
    faultOf (stepOp 0x00EE { State.reset with pc := 0x400#16 }) = some (.stackUnderflow 0x400#16) := by decide
/-- V-C9. -/
theorem test_step_jp : shown (stepOp 0x1228 State.reset) (·.pc) = some 0x228#16 := by decide
/-- V-C7. -/
theorem test_step_call :
    shown (stepOp 0x2400 { State.reset with pc := 0xFFE#16 }) (fun t => (t.stack[0], t.sp, t.pc)) =
      some (0x1000#16, 1, 0x400#16) := by decide
/-- V-C5. -/
theorem test_step_call_full :
    faultOf (stepOp 0x2500 { State.reset with pc := 0x400#16, sp := 16 }) = some (.stackOverflow 0x400#16) := by decide
/-- V-S1. -/
theorem test_step_seImm_equal : shown (stepOp 0x332A (regs [(3, 0x2A#8)])) (·.pc) = some 0x204#16 := by decide
/-- V-S18: a skip past RAM's last word is no fault of its own. -/
theorem test_step_seImm_end :
    shown (stepOp 0x3000 { State.reset with pc := 0xFFC#16 }) (·.pc) = some 0x1000#16 := by decide
/-- V-S3, V-S4. -/
theorem test_step_sneImm_equal : shown (stepOp 0x432A (regs [(3, 0x2A#8)])) (·.pc) = some 0x202#16 := by decide
theorem test_step_sneImm_differ : shown (stepOp 0x4300 (regs [(3, 0x2A#8)])) (·.pc) = some 0x204#16 := by decide
/-- V-S5, V-S6. -/
theorem test_step_seReg_equal :
    shown (stepOp 0x5120 (regs [(1, 7#8), (2, 7#8)])) (·.pc) = some 0x204#16 := by decide
theorem test_step_seReg_differ :
    shown (stepOp 0x5120 (regs [(1, 7#8), (2, 8#8)])) (·.pc) = some 0x202#16 := by decide
/-- V-S8, V-S9. -/
theorem test_step_sneReg_differ :
    shown (stepOp 0x9120 (regs [(1, 7#8), (2, 8#8)])) (·.pc) = some 0x204#16 := by decide
theorem test_step_sneReg_same : shown (stepOp 0x9440 (regs [(4, 9#8)])) (·.pc) = some 0x202#16 := by decide
/-- V-A2. -/
theorem test_step_ldImm_vf : shown (stepOp 0x6F07 (regs [(15, 1#8)])) (·.getV 15) = some 0x07#8 := by decide
/-- V-A3. -/
theorem test_step_addImm_wraps :
    shown (stepOp 0x7205 (regs [(2, 0xFE#8), (15, 0x55#8)])) (fun t => (t.getV 2, t.getV 15)) =
      some (0x03#8, 0x55#8) := by decide
/-- V-A7. -/
theorem test_step_ldReg_vf : shown (stepOp 0x8F10 (regs [(1, 0x33#8)])) (·.getV 15) = some 0x33#8 := by decide
/-- V-A8. -/
theorem test_step_orReg :
    shown (stepOp 0x8011 (regs [(0, 0xF0#8), (1, 0x0C#8), (15, 0x99#8)])) (fun t => (t.getV 0, t.getV 15)) =
      some (0xFC#8, 0x99#8) := by decide
/-- V-A9. -/
theorem test_step_andReg :
    shown (stepOp 0x8012 (regs [(0, 0xF0#8), (1, 0x3C#8), (15, 0x99#8)])) (fun t => (t.getV 0, t.getV 15)) =
      some (0x30#8, 0x99#8) := by decide
/-- V-A10, V-A11. -/
theorem test_step_xorReg :
    shown (stepOp 0x8013 (regs [(0, 0xF0#8), (1, 0x3C#8), (15, 0x99#8)])) (fun t => (t.getV 0, t.getV 15)) =
      some (0xCC#8, 0x99#8) := by decide
theorem test_step_xorReg_same : shown (stepOp 0x8663 (regs [(6, 0x5A#8)])) (·.getV 6) = some 0x00#8 := by decide
/-- L1-4. -/
theorem test_step_addReg_carry :
    shown (stepOp 0x8014 (regs [(0, 0xED#8), (1, 0x46#8)])) (fun t => (t.getV 0, t.getV 15)) =
      some (0x33#8, 0x01#8) := by decide
/-- V-A15: with X = 0xF the carry stays. -/
theorem test_step_addReg_vf :
    shown (stepOp 0x8F14 (regs [(15, 0xF0#8), (1, 0x20#8)])) (·.getV 15) = some 0x01#8 := by decide
/-- L1-6, both orders. -/
theorem test_step_sub :
    shown (stepOp 0x8015 (regs [(0, 0xED#8), (1, 0x46#8)])) (fun t => (t.getV 0, t.getV 15)) =
      some (0xA7#8, 0x01#8) := by decide
theorem test_step_sub_borrow :
    shown (stepOp 0x8015 (regs [(0, 0x46#8), (1, 0xED#8)])) (fun t => (t.getV 0, t.getV 15)) =
      some (0x59#8, 0x00#8) := by decide
/-- V-A20, V-A21: the two shift sources. -/
theorem test_step_shr_vx :
    shown (stepOp 0x8476 (regs [(4, 0x05#8), (7, 0xFF#8)])) (fun t => (t.getV 4, t.getV 15)) =
      some (0x02#8, 0x01#8) := by decide
theorem test_step_shr_vy :
    shown (stepOp 0x8476 { regs [(4, 0x05#8), (7, 0xFF#8)] with params := ⟨.vy, standardFont⟩ })
      (fun t => (t.getV 4, t.getV 15)) = some (0x7F#8, 0x01#8) := by decide
/-- V-A24, V-A25. -/
theorem test_step_subn :
    shown (stepOp 0x8017 (regs [(0, 0x46#8), (1, 0xED#8)])) (fun t => (t.getV 0, t.getV 15)) =
      some (0xA7#8, 0x01#8) := by decide
theorem test_step_subn_borrow :
    shown (stepOp 0x8017 (regs [(0, 0xED#8), (1, 0x46#8)])) (fun t => (t.getV 0, t.getV 15)) =
      some (0x59#8, 0x00#8) := by decide
/-- V-A27. -/
theorem test_step_shl :
    shown (stepOp 0x840E (regs [(4, 0x81#8)])) (fun t => (t.getV 4, t.getV 15)) = some (0x02#8, 0x01#8) := by decide
/-- V-A30, the second convention. -/
theorem test_step_shl_vy :
    shown (stepOp 0x845E { regs [(4, 0x01#8), (5, 0x81#8)] with params := ⟨.vy, standardFont⟩ })
      (fun t => (t.getV 4, t.getV 15)) = some (0x02#8, 0x01#8) := by decide
/-- V-D1. -/
theorem test_step_ldI : shown (stepOp 0xA123 State.reset) (·.i) = some 0x123#16 := by decide
/-- V-C14, V-C13. -/
theorem test_step_jpV0 : shown (stepOp 0xBFFF (regs [(0, 0xFF#8)])) (·.pc) = some 0x10FE#16 := by decide
theorem test_step_jpV0_register : shown (stepOp 0xB123 (regs [(1, 0x50#8)])) (·.pc) = some 0x123#16 := by decide
/-- V-D2, V-D16: with a given random byte. -/
theorem test_step_rnd :
    shown (stepWith 0xB7#8 (State.reset.withFetchWord 16 0xC30F)) (·.getV 3) = some 0x07#8 := by decide
theorem test_step_rnd_vf :
    shown (stepWith 0xF3#8 (State.reset.withFetchWord 16 0xCF3C)) (·.getV 15) = some 0x30#8 := by decide

/-- The state of V-D7: a two-row sprite at the bottom right corner. -/
def cornerSprite : State := { (regs [(0, 0x3E#8), (1, 0x1F#8)]).putBytes 0x300 [0xFF#8, 0x81#8] with i := 0x300#16 }

/-- V-D7: both edges wrap. -/
theorem test_step_drw_wraps :
    shown (stepOp 0xD012 cornerSprite) (fun t =>
      ([(62, 31), (63, 31), (0, 31), (5, 31), (62, 0), (5, 0)].map (fun p => getPixel t.disp p.1 p.2),
       [(6, 31), (63, 0), (0, 0), (62, 30)].map (fun p => getPixel t.disp p.1 p.2), t.getV 15)) =
      some ([true, true, true, true, true, true], [false, false, false, false], 0#8) := by decide +kernel

/-- V-D9: a lit pixel goes out and VF is 1. -/
theorem test_step_drw_collides :
    shown (stepOp 0xD011 { State.reset.putBytes 0x300 [0xC0#8] with i := 0x300#16, disp := flipPixel clearGrid 0 0 })
      (fun t => (getPixel t.disp 0 0, getPixel t.disp 1 0, t.getV 15)) = some (false, true, 1#8) := by decide +kernel

/-- Log 16: over a pixel that was lit, the second of two equal draws reports no collision, by R172's pseudocode and R175. -/
theorem test_drw_twice_over_lit_pixel :
    (match exec (.drw 0 1 1#4) { State.reset.putBytes 0x300 [0x80#8] with
        i := 0x300#16, disp := flipPixel clearGrid 0 0 } with
      | .next t => shown (exec (.drw 0 1 1#4) t) (fun u => (t.getV 15, u.getV 15, getPixel u.disp 0 0))
      | _ => none) = some (1#8, 0#8, true) := by decide +kernel

/-- V-S10, V-S12: the key index is the register's whole value. -/
theorem test_step_skp :
    shown (stepOp 0xE59E (keyDown 0xA (regs [(5, 0x0A#8)]))) (·.pc) = some 0x204#16 := by decide
theorem test_step_skp_no_mask :
    shown (stepOp 0xE59E (keyDown 0xA (regs [(5, 0x1A#8)]))) (·.pc) = some 0x202#16 := by decide
/-- V-S14, V-S15. -/
theorem test_step_sknp :
    shown (stepOp 0xE5A1 (keyDown 0xA (regs [(5, 0x0A#8)]))) (·.pc) = some 0x202#16 := by decide
theorem test_step_sknp_no_mask :
    shown (stepOp 0xE5A1 (keyDown 0xA (regs [(5, 0x1A#8)]))) (·.pc) = some 0x204#16 := by decide
/-- V-T1. -/
theorem test_step_ldVxDt :
    shown (stepOp 0xF307 { State.reset with dt := 0x3C#8 }) (fun t => (t.getV 3, t.dt)) =
      some (0x3C#8, 0x3C#8) := by decide
/-- V-K1: no key down, no change. -/
theorem test_step_ldVxK_waits :
    stepOp 0xF30A State.reset = .next (State.reset.withFetchWord 16 0xF30A) := rfl
/-- V-K2: the lowest index wins. -/
theorem test_step_ldVxK :
    shown (stepOp 0xF30A (keyDown 0x7 (keyDown 0xB State.reset))) (fun t => (t.getV 3, t.pc)) =
      some (0x07#8, 0x202#16) := by decide
/-- V-T2. -/
theorem test_step_ldDtVx :
    shown (stepOp 0xF315 (regs [(3, 0x3C#8)])) (fun t => (t.dt, (tick t).dt)) = some (0x3C#8, 0x3B#8) := by decide
/-- V-T3. -/
theorem test_step_ldStVx : shown (stepOp 0xF318 (regs [(3, 0x05#8)])) (·.st) = some 0x05#8 := by decide
/-- V-T5, V-T6. -/
theorem test_step_addIVx :
    shown (stepOp 0xF21E { regs [(2, 0x01#8)] with i := 0x0FFF#16 }) (fun t => (t.i, t.getV 15)) =
      some (0x1000#16, 0#8) := by decide
theorem test_step_addIVx_wraps :
    shown (stepOp 0xF21E { regs [(2, 0x01#8)] with i := 0xFFFF#16 }) (·.i) = some 0x0000#16 := by decide
/-- V-T9. -/
theorem test_step_ldFVx : shown (stepOp 0xF429 (regs [(4, 0xFF#8)])) (·.i) = some 0x04FB#16 := by decide
/-- V-T10. -/
theorem test_step_ldBVx :
    shown (stepOp 0xF533 { regs [(5, 0xF9#8)] with i := 0x300#16 }) (fun t => (t.bytesAt 0x300 3, t.i)) =
      some ([0x02#8, 0x04#8, 0x09#8], 0x300#16) := by decide
/-- V-T15. -/
theorem test_step_ldBVx_range :
    faultOf (stepOp 0xF533 { State.reset with i := 0xFFE#16 }) = some (.addressOutOfRange 0x1000) := by decide
/-- V-T20: the font may be overwritten. -/
theorem test_step_ldMemVx_font :
    shown (stepOp 0xF055 (regs [(0, 0xAA#8)])) (fun t => t.bytesAt 0 2) = some [0xAA#8, 0x90#8] := by decide
/-- V-T19. -/
theorem test_step_ldMemVx_range :
    faultOf (stepOp 0xFF55 { State.reset with i := 0xFF1#16 }) = some (.addressOutOfRange 0x1000) := by decide
/-- V-T21. -/
theorem test_step_ldVxMem :
    shown (stepOp 0xF165 { (regs [(2, 0x77#8)]).putBytes 0x300 [0x11#8, 0x22#8, 0x33#8] with i := 0x300#16 })
      (fun t => (t.getV 0, t.getV 1, t.getV 2, t.i)) = some (0x11#8, 0x22#8, 0x77#8, 0x300#16) := by decide
/-- V-T23. -/
theorem test_step_ldVxMem_range :
    faultOf (stepOp 0xF165 { State.reset with i := 0xFFF#16 }) = some (.addressOutOfRange 0x1000) := by decide

/-! ### Fetch, reset and host commands -/

/-- V-E10: the last fetch that is in range. -/
theorem test_fetch_last :
    shown (stepOp 0x6A01 { State.reset with pc := 0xFFE#16 }) (fun t => (t.getV 10, t.pc)) =
      some (0x01#8, 0x1000#16) := by decide
/-- V-E12, V-E13. -/
theorem test_fetch_range :
    faultOf (step { State.reset with pc := 0xFFF#16 }) = some (.addressOutOfRange 0x1000) ∧
    faultOf (step { State.reset with pc := 0x2345#16 }) = some (.addressOutOfRange 0x2345) := by decide
/-- V-E14: an odd PC. -/
theorem test_fetch_odd :
    shown (stepOp 0x6055 { State.reset with pc := 0x201#16 }) (fun t => (t.getV 0, t.pc)) =
      some (0x55#8, 0x203#16) := by decide
/-- V-R5, R410. -/
theorem test_reset_step : faultOf (step State.reset) = some (.invalidOpcode 0#16) := by decide
/-- R41, R33: the font's first and last glyph and the byte after it. -/
theorem test_reset_font :
    State.reset.bytesAt 0 5 = [0xF0#8, 0x90#8, 0x90#8, 0x90#8, 0xF0#8] ∧
    State.reset.bytesAt 75 6 = [0xF0#8, 0x80#8, 0xF0#8, 0x80#8, 0x80#8, 0x00#8] := by decide
/-- V-X1. -/
theorem test_tick_floor :
    (perform .tick { State.reset with st := 1#8 }).1.st = 0#8 ∧
    (perform .tick { State.reset with st := 1#8 }).1.dt = 0#8 := by decide
/-- V-K7: key 16 is ignored. -/
theorem test_key_16 : (perform (.keyDown 16) State.reset).1.keys = State.reset.keys := by decide
/-- V-R4: a LOAD re-seeds the font and clears low memory and the keys. -/
theorem test_load :
    let s := perform (.load [0x12#8, 0x00#8]) (keyDown 2 ((State.reset.putBytes 0 [0xAA#8]).putBytes 0x100 [0x55#8]))
    s.2 = .ok ∧ s.1.bytesAt 0 2 = [0xF0#8, 0x90#8] ∧ s.1.byteAt 0x100 = 0#8 ∧ s.1.bytesAt 0x200 2 = [0x12#8, 0x00#8] ∧
      s.1.keys[2] = false := by decide
/-- R342: TICK goes before STEP and EXPORT after it, whatever the order of arrival. -/
theorem test_same_cycle :
    arbitrate [.exportState, .step 0#8, .tick, .keyUp 1, .keyDown 1] =
      [.keyUp 1, .keyDown 1, .tick, .step 0#8, .exportState] := by decide
/-- R39: P4's wait. -/
theorem test_awaiting_key :
    awaitingKey (State.reset.withFetchWord 16 0xF30A) = true ∧
    awaitingKey (keyDown 3 (State.reset.withFetchWord 16 0xF30A)) = false := by decide
/-- V-C10: the end of a run. -/
theorem test_self_jump : atSelfJump (State.reset.withFetchWord 16 0x1200) = true := by decide

/-! ### Witnesses: states and operands that meet each obligation's hypotheses, clause by clause, at boundary values -/

/-- An instruction word at the last address fetch reaches. -/
def lastWord (op : Nat) : State := { State.reset with pc := 0xFFE#16 }.withFetchWord 16 op

theorem witness_StepRunsDecoded :
    (lastWord 0x6A01).pc.toNat + 1 ≤ 0xFFF ∧
    decode (opcodeOf ((lastWord 0x6A01).byteAt (lastWord 0x6A01).pc.toNat)
      ((lastWord 0x6A01).byteAt ((lastWord 0x6A01).pc.toNat + 1))) = some (.ldImm 10 1#8) := by decide

theorem witness_FetchReadsBigEndian :
    (lastWord 0).pc.toNat + 1 ≤ 0xFFF ∧ 0xFFF < ({ State.reset with pc := 0xFFF#16 } : State).pc.toNat + 1 := by decide

theorem witness_StepFaultOrder_fetch :
    (0x0000#16).toNat = 256 * (({ State.reset with pc := 0xFFF#16 } : State).byteAt 0xFFF).toNat +
      (({ State.reset with pc := 0xFFF#16 } : State).byteAt 0x1000).toNat ∧
    0xFFF < ({ State.reset with pc := 0xFFF#16 } : State).pc.toNat + 1 := by decide
theorem witness_StepFaultOrder_invalid :
    (0x5121#16).toNat = 256 * ((lastWord 0x5121).byteAt 0xFFE).toNat + ((lastWord 0x5121).byteAt 0xFFF).toNat ∧
    (lastWord 0x5121).pc.toNat + 1 ≤ 0xFFF ∧ decode 0x5121#16 = none := by decide
theorem witness_StepFaultOrder_runs :
    (0x2ABC#16).toNat = 256 * ((lastWord 0x2ABC).byteAt 0xFFE).toNat + ((lastWord 0x2ABC).byteAt 0xFFF).toNat ∧
    (lastWord 0x2ABC).pc.toNat + 1 ≤ 0xFFF ∧ decode 0x2ABC#16 = some (.call 0xABC#12) := by decide

theorem witness_InstructionFaults :
    faultOf (exec (.call 0) { State.reset with sp := 16 }) = some (.stackOverflow 0x200#16) ∧
    faultOf (exec .ret State.reset) = some (.stackUnderflow 0x200#16) ∧
    faultOf (exec (.ldVxMem 15) { State.reset with i := 0xFF1#16 }) = some (.addressOutOfRange 0x1000) := by decide

theorem witness_EveryInstructionCompletes_call :
    (∀ nnn, Instr.call 0x200#12 = .call nnn → ({ State.reset with sp := 15 } : State).sp.val < 16) ∧
    (Instr.call 0x200#12 = .ret → 0 < ({ State.reset with sp := 15 } : State).sp.val) ∧
    (0 < accessCount (.call 0x200#12) →
      ({ State.reset with sp := 15 } : State).i.toNat + accessCount (.call 0x200#12) ≤ 0x1000) :=
  ⟨fun _ _ => by decide, fun h => (nomatch h), by decide⟩
theorem witness_EveryInstructionCompletes_ret :
    (∀ nnn, Instr.ret = .call nnn → ({ State.reset with sp := 1 } : State).sp.val < 16) ∧
    (Instr.ret = .ret → 0 < ({ State.reset with sp := 1 } : State).sp.val) ∧
    (0 < accessCount .ret → ({ State.reset with sp := 1 } : State).i.toNat + accessCount .ret ≤ 0x1000) :=
  ⟨fun _ h => (nomatch h), fun _ => by decide, by decide⟩
theorem witness_EveryInstructionCompletes_access :
    (∀ nnn, Instr.ldMemVx 15 = .call nnn → ({ State.reset with i := 0xFF0#16 } : State).sp.val < 16) ∧
    (Instr.ldMemVx 15 = .ret → 0 < ({ State.reset with i := 0xFF0#16 } : State).sp.val) ∧
    (0 < accessCount (.ldMemVx 15) →
      ({ State.reset with i := 0xFF0#16 } : State).i.toNat + accessCount (.ldMemVx 15) ≤ 0x1000) :=
  ⟨fun _ h => (nomatch h), fun h => (nomatch h), fun _ => by decide⟩

theorem witness_DecodeEncodeAgree : (Instr.drw 15 15 0xF#4).wellFormed = true := by decide
theorem witness_EncodeDecodeAgree : decode 0xFF65#16 = some (.ldVxMem 15) := by decide
theorem witness_DecodeFollowsOpcodeMap :
    (⟨"SHL", 0x800E#16, 0xF00F#16⟩ : OpcodeRow) ∈ opcodeMap ∧
    OpcodeRow.selects ⟨"SHL", 0x800E#16, 0xF00F#16⟩ 0x8FFE#16 = true := by decide
theorem witness_InvalidOpcodesRefused :
    [0x0FFF#16, 0x5FFF#16, 0x8FFF#16, 0x9FFF#16, 0xEFFF#16, 0xFFFF#16].map decode = List.replicate 6 none := by decide

theorem witness_ReturnPopsStack :
    State.reset.sp.val = 0 ∧ ({ State.reset with sp := 1 } : State).sp.val = (0 : Fin 16).val + 1 ∧
    ({ State.reset with sp := 16 } : State).sp.val = (15 : Fin 16).val + 1 := by decide
theorem witness_JumpSetsPc :
    0x1FFF#16 &&& 0xF000#16 = 0x1000#16 ∧ State.reset.pc.toNat = (0x200#12).toNat := by decide
theorem witness_CallPushesReturnAddress :
    0x2FFF#16 &&& 0xF000#16 = 0x2000#16 ∧ ({ State.reset with sp := 16 } : State).sp.val = 16 ∧
    State.reset.sp.val = (0 : Fin 16).val ∧ ({ State.reset with sp := 15 } : State).sp.val = (15 : Fin 16).val := by
  decide
theorem witness_JumpAddsV0 : 0xBFFF#16 &&& 0xF000#16 = 0xB000#16 := by decide

theorem witness_SkipOnCompare :
    0x3FFF#16 &&& 0xF000#16 = 0x3000#16 ∧ 0x4FFF#16 &&& 0xF000#16 = 0x4000#16 ∧
    0x5FF0#16 &&& 0xF00F#16 = 0x5000#16 ∧ 0x9FF0#16 &&& 0xF00F#16 = 0x9000#16 := by decide
theorem witness_SkipOnKey :
    0xEF9E#16 &&& 0xF0FF#16 = 0xE09E#16 ∧ 0xEFA1#16 &&& 0xF0FF#16 = 0xE0A1#16 ∧
    ((regs [(5, 15#8)]).getV 5).toNat = (15 : Fin 16).val ∧
    (keyDown 15 (regs [(5, 15#8)])).keys[(15 : Fin 16).val] = true ∧
    (∀ k : Fin 16, ((keyDown 0 (regs [(5, 16#8)])).getV 5).toNat = k.val →
      (keyDown 0 (regs [(5, 16#8)])).keys[k.val] = false) ∧
    (∀ k : Fin 16, ((keyDown 14 (regs [(5, 15#8)])).getV 5).toNat = k.val →
      (keyDown 14 (regs [(5, 15#8)])).keys[k.val] = false) := by decide

theorem witness_LoadAndCopyRegister :
    0x6FFF#16 &&& 0xF000#16 = 0x6000#16 ∧ 0x8FF0#16 &&& 0xF00F#16 = 0x8000#16 := by decide
theorem witness_AddImmediate : 0x7FFF#16 &&& 0xF000#16 = 0x7000#16 := by decide
theorem witness_BitwiseRegister :
    0x8FF1#16 &&& 0xF00F#16 = 0x8001#16 ∧ 0x8FF2#16 &&& 0xF00F#16 = 0x8002#16 ∧
    0x8FF3#16 &&& 0xF00F#16 = 0x8003#16 := by decide
theorem witness_AddWithCarry : 0x8FF4#16 &&& 0xF00F#16 = 0x8004#16 := by decide
theorem witness_SubtractWithNoBorrow :
    0x8FF5#16 &&& 0xF00F#16 = 0x8005#16 ∧ 0x8FF7#16 &&& 0xF00F#16 = 0x8007#16 := by decide
theorem witness_ShiftByOne :
    0x8FF6#16 &&& 0xF00F#16 = 0x8006#16 ∧ 0x8FFE#16 &&& 0xF00F#16 = 0x800E#16 ∧
    (0x81#8 = if (regs [(4, 0x81#8), (5, 1#8)]).params.shiftSource = .vx then (regs [(4, 0x81#8), (5, 1#8)]).getV 4
      else (regs [(4, 0x81#8), (5, 1#8)]).getV 5) ∧
    (0x81#8 = if ({ regs [(5, 0x81#8)] with params := ⟨.vy, standardFont⟩ } : State).params.shiftSource = .vx then
      ({ regs [(5, 0x81#8)] with params := ⟨.vy, standardFont⟩ } : State).getV 4
      else ({ regs [(5, 0x81#8)] with params := ⟨.vy, standardFont⟩ } : State).getV 5) := by decide

theorem witness_IndexWrites :
    0xAFFF#16 &&& 0xF000#16 = 0xA000#16 ∧ 0xFF1E#16 &&& 0xF0FF#16 = 0xF01E#16 ∧
    0xFF29#16 &&& 0xF0FF#16 = 0xF029#16 := by decide
theorem witness_RandomMasked :
    0xCFFF#16 &&& 0xF000#16 = 0xC000#16 ∧ (∀ x nn, Instr.drw 0 0 0xF#4 ≠ .rnd x nn) :=
  ⟨by decide, fun _ _ h => nomatch h⟩

/-- One lit sprite bit, the rightmost, at the screen's last pixel. -/
def lastPixel (d : Grid) : State :=
  { (regs [(0, 56#8), (1, 31#8)]).putBytes 0xFFF [0x01#8] with i := 0xFFF#16, disp := d }

/-- Its sprite bit falls on pixel (63, 31) and on no other. -/
theorem lastPixel_covers (d : Grid) (px py : Nat) : SpriteCovers (lastPixel d) 0 1 1#4 px py ↔ px = 63 ∧ py = 31 := by
  have hbit : ∀ c < 8, spriteHas (lastPixel d) 0 c = decide (c = 7) := by
    have : (lastPixel d).byteAt ((lastPixel d).i.toNat + 0) = 0x01#8 := rfl
    intro c hc
    rw [spriteHas, this]
    revert c
    decide
  constructor
  · rintro ⟨r, c, hr, hc, hb, rfl, rfl⟩
    obtain rfl : r = 0 := by simpa using hr
    rw [hbit c hc] at hb
    obtain rfl : c = 7 := by simpa using hb
    exact ⟨rfl, rfl⟩
  · rintro ⟨rfl, rfl⟩
    exact ⟨0, 7, by decide, by decide, (hbit 7 (by decide)).trans (by decide), rfl, rfl⟩

theorem witness_DrawSpritePixels_range :
    0xDFFF#16 &&& 0xF000#16 = 0xD000#16 ∧
    (0 < (0xF#4).toNat ∧ 0xFFF < ({ State.reset with i := 0xFF2#16 } : State).i.toNat + (0xF#4).toNat - 1) ∧
    ((0#4).toNat = 0 ∨ ({ State.reset with i := 0xFFFF#16 } : State).i.toNat + (0#4).toNat - 1 ≤ 0xFFF) ∧
    ((0xF#4).toNat = 0 ∨ ({ State.reset with i := 0xFF1#16 } : State).i.toNat + (0xF#4).toNat - 1 ≤ 0xFFF) := by decide
theorem witness_DrawSpritePixels_covered : SpriteCovers (lastPixel clearGrid) 0 1 1#4 63 31 ∧
    ¬ SpriteCovers (lastPixel clearGrid) 0 1 1#4 62 31 := by
  simp only [lastPixel_covers]; decide
theorem witness_DrawSpritePixels_lit :
    (∃ px < 64, ∃ py < 32, SpriteCovers (lastPixel (flipPixel clearGrid 63 31)) 0 1 1#4 px py ∧
      getPixel (lastPixel (flipPixel clearGrid 63 31)).disp px py = true) ∧
    ¬ ∃ px < 64, ∃ py < 32, SpriteCovers (lastPixel clearGrid) 0 1 1#4 px py ∧
      getPixel (lastPixel clearGrid).disp px py = true := by
  simp only [lastPixel_covers]
  refine ⟨⟨63, by decide, 31, by decide, ⟨rfl, rfl⟩, by decide +kernel⟩, ?_⟩
  rintro ⟨px, -, py, -, ⟨rfl, rfl⟩, h⟩
  revert h
  decide +kernel

theorem witness_DrawTwiceRestores :
    ∃ t, exec (.drw 0 1 1#4) (lastPixel clearGrid) = .next t ∧
      (t.getV 0).toNat % 64 = ((lastPixel clearGrid).getV 0).toNat % 64 ∧
      (t.getV 1).toNat % 32 = ((lastPixel clearGrid).getV 1).toNat % 32 :=
  ⟨_, rfl, rfl, rfl⟩
theorem witness_DrawTwiceRestores_unlit :
    (∃ px < 64, ∃ py < 32, SpriteCovers (lastPixel clearGrid) 0 1 1#4 px py ∧
      getPixel (lastPixel clearGrid).disp px py = false) ∧
    ¬ ∃ px < 64, ∃ py < 32, SpriteCovers (lastPixel (flipPixel clearGrid 63 31)) 0 1 1#4 px py ∧
      getPixel (lastPixel (flipPixel clearGrid 63 31)).disp px py = false := by
  simp only [lastPixel_covers]
  refine ⟨⟨63, by decide, 31, by decide, ⟨rfl, rfl⟩, by decide +kernel⟩, ?_⟩
  rintro ⟨px, -, py, -, ⟨rfl, rfl⟩, h⟩
  revert h
  decide +kernel

theorem witness_TimerMoves :
    0xFF07#16 &&& 0xF0FF#16 = 0xF007#16 ∧ 0xFF15#16 &&& 0xF0FF#16 = 0xF015#16 ∧
    0xFF18#16 &&& 0xF0FF#16 = 0xF018#16 := by decide
theorem witness_StoreDecimalDigits :
    0xFF33#16 &&& 0xF0FF#16 = 0xF033#16 ∧ 0xFFF < ({ State.reset with i := 0xFFE#16 } : State).i.toNat + 2 ∧
    ({ State.reset with i := 0xFFD#16 } : State).i.toNat + 2 ≤ 0xFFF := by decide
theorem witness_StoreRegisterBlock :
    0xFF55#16 &&& 0xF0FF#16 = 0xF055#16 ∧
    0xFFF < ({ State.reset with i := 0xFF1#16 } : State).i.toNat + (15 : Reg).val ∧
    ({ State.reset with i := 0xFF0#16 } : State).i.toNat + (15 : Reg).val ≤ 0xFFF := by decide
theorem witness_LoadRegisterBlock :
    0xFF65#16 &&& 0xF0FF#16 = 0xF065#16 ∧
    0xFFF < ({ State.reset with i := 0x1000#16 } : State).i.toNat + (0 : Reg).val ∧
    ({ State.reset with i := 0xFFF#16 } : State).i.toNat + (0 : Reg).val ≤ 0xFFF := by decide
theorem witness_StoreLoadRoundTrip :
    ({ State.reset with i := 0xFF0#16 } : State).i.toNat + (15 : Reg).val ≤ 0xFFF := by decide
theorem witness_KeyWaitTakesLowest :
    0xFF0A#16 &&& 0xF0FF#16 = 0xF00A#16 ∧ (∀ k : Fin 16, State.reset.keys[k.val] = false) ∧
    ((keyDown 15 State.reset).keys[(15 : Fin 16).val] = true ∧
      ∀ j : Fin 16, j < 15 → (keyDown 15 State.reset).keys[j.val] = false) := by decide

theorem witness_RegisterFrame :
    (∃ t, exec (.ldVxMem 14) { State.reset with i := 0x300#16 } = .next t) ∧ mayWriteReg (.ldVxMem 14) 15 = false ∧
    (∃ t, exec (.addReg 0 1) State.reset = .next t) ∧ mayWriteReg (.addReg 0 1) 14 = false :=
  ⟨⟨_, rfl⟩, by decide, ⟨_, rfl⟩, by decide⟩
theorem witness_MemoryFrame :
    (∃ t, exec (.ldBVx 0) { State.reset with i := 0x300#16 } = .next t) ∧
    indexAddress { State.reset with i := 0x300#16 } = 0x300 ∧
    (0x2FF < 0x300 ∨ 0x300 + storeCount (.ldBVx 0) ≤ 0x2FF) ∧ (0x303 < 0x300 ∨ 0x300 + storeCount (.ldBVx 0) ≤ 0x303) ∧
    (∃ t, exec .cls State.reset = .next t) ∧ storeCount .cls = 0 :=
  ⟨⟨_, rfl⟩, by decide, by decide, by decide, ⟨_, rfl⟩, by decide⟩
theorem witness_ControlStateFrame :
    (∃ t, exec (.call 0x300#12) State.reset = .next t) ∧
    (∀ nnn, Instr.call 0x300#12 ≠ .ldI nnn) ∧ (∀ x, Instr.call 0x300#12 ≠ .addIVx x) ∧
    (∀ x, Instr.call 0x300#12 ≠ .ldFVx x) ∧
    (∀ nnn, Instr.call 0x300#12 = .call nnn → State.reset.sp.val ≠ (1 : Fin 16).val) ∧
    (∀ x, Instr.call 0x300#12 ≠ .ldDtVx x) ∧ (∀ x, Instr.call 0x300#12 ≠ .ldStVx x) ∧
    (∃ t, exec (.ldI 1#12) State.reset = .next t) ∧ (∀ nnn, Instr.ldI 1#12 ≠ .call nnn) ∧ Instr.ldI 1#12 ≠ .ret :=
  ⟨⟨_, rfl⟩, fun _ h => (nomatch h), fun _ h => (nomatch h), fun _ h => (nomatch h), fun _ _ => by decide,
    fun _ h => (nomatch h), fun _ h => (nomatch h), ⟨_, rfl⟩, fun _ h => (nomatch h), fun h => nomatch h⟩
theorem witness_DisplayAndInputFrame :
    (∃ t, exec (.ldI 1#12) State.reset = .next t) ∧ Instr.ldI 1#12 ≠ .cls ∧ (∀ x y n, Instr.ldI 1#12 ≠ .drw x y n) ∧
    (∀ x nn, Instr.ldI 1#12 ≠ .rnd x nn) ∧ (∃ t, exec (.drw 0 0 0#4) State.reset = .next t) :=
  ⟨⟨_, rfl⟩, fun h => (nomatch h), fun _ _ _ h => (nomatch h), fun _ _ h => (nomatch h), ⟨_, rfl⟩⟩
theorem witness_ProgramCounterAdvances :
    (∃ t, exec (.seImm 0 0#8) { State.reset with pc := 0xFFFC#16 } = .next t) ∧ isTransfer (.seImm 0 0#8) = false ∧
    (∃ t, exec (.ldVxK 0) State.reset = .next t) ∧ isTransfer (.ldVxK 0) = false :=
  ⟨⟨_, rfl⟩, by decide, ⟨_, rfl⟩, by decide⟩
theorem witness_KeysReadByThree : readsKeys (.ldVxDt 0) = false ∧ readsKeys .ret = false := by decide

theorem witness_RangeCheckedAccess :
    (0 < 1 ∧ 0xFFF < 0x1000 + 1 - 1) ∧ (0 < 2 ∧ 0xFFF < 0xFFF + 2 - 1) ∧
    (1 = 0 ∨ 0xFFF + 1 - 1 ≤ 0xFFF) ∧ (0 = 0 ∨ 0x10000 + 0 - 1 ≤ 0xFFF) ∧ [0x5A#8].length = 1 := by decide
theorem witness_WriteChangesItsBytes :
    (∃ t, memWrite State.reset 0xFFE [0x11#8, 0x22#8] = .ok t) ∧ [0x11#8, 0x22#8][1]? = some 0x22#8 ∧
    (0xFFD < 0xFFE ∨ 0xFFE + [0x11#8, 0x22#8].length ≤ 0xFFD) :=
  ⟨⟨_, rfl⟩, by decide, by decide⟩
theorem witness_StoreSeenByNextFetch :
    ∃ t, exec (.ldMemVx 1) { regs [(0, 0x12#8), (1, 0x0A#8)] with pc := 0xFFC#16, i := 0xFFE#16 } = .next t ∧
      t.pc.toNat = ({ regs [(0, 0x12#8), (1, 0x0A#8)] with pc := 0xFFC#16, i := 0xFFE#16 } : State).i.toNat +
        (0 : Reg).val ∧ (0 : Reg).val ≤ (1 : Reg).val ∧ (1 : Reg).val = (0 : Reg).val + 1 :=
  ⟨_, rfl, rfl, by decide, by decide⟩
theorem witness_CanonicalMemoryKeptByStep :
    (State.reset.withFetchWord 16 0xF055).Inv ∧ ∃ t, step (State.reset.withFetchWord 16 0xF055) = .next t :=
  ⟨rfl, _, rfl⟩
theorem witness_CanonicalMemoryKeptByCommands : (State.reset.withFetchWord 16 0xF055).Inv := rfl

theorem witness_KeyEventsSetLevels : 15 < 16 := by decide
theorem witness_PressIsNotLatched : State.reset.keys[(15 : Fin 16).val] = false := by decide
theorem witness_LoadReplacesState :
    3584 < (List.replicate 3585 0x12#8).length ∧ (List.replicate 3584 0x12#8).length ≤ 3584 := by
  simp only [List.length_replicate]; decide

/-- A record with every value 0. -/
def zeroRecord : StateRecord where
  ram := some (List.replicate 4096 0)
  v := some (List.replicate 16 0)
  i := some 0
  pc := some 0
  stack := some (List.replicate 16 0)
  sp := some 0
  dt := some 0
  st := some 0
  disp := some (List.replicate 64 (List.replicate 32 false))
  extraFields := 0

theorem witness_ImportChecksRecord_accepted : RecordWellFormed zeroRecord := by
  refine ⟨⟨_, rfl, List.length_replicate, ?_⟩, ⟨_, rfl, List.length_replicate, ?_⟩, ⟨_, rfl, by decide⟩,
    ⟨_, rfl, by decide⟩, ⟨_, rfl, List.length_replicate, ?_⟩, ⟨_, rfl, by decide⟩, ⟨_, rfl, by decide⟩,
    ⟨_, rfl, by decide⟩, ⟨_, rfl, List.length_replicate, ?_⟩, rfl⟩
  all_goals
    intro b hb
    obtain ⟨-, rfl⟩ := List.mem_replicate.mp hb
    decide
/-- V-R7: a stack depth of 17. -/
theorem witness_ImportChecksRecord_refused : ¬ RecordWellFormed { zeroRecord with sp := some 17 } := by
  rintro ⟨-, -, -, -, -, ⟨d, hd, hle⟩, -⟩
  simp only [Option.some.injEq] at hd
  omega

theorem zeroRecord_ram : ∃ m, zeroRecord.ram.bind (checkedRam State.reset.params.font) = some m := by
  rw [zeroRecord, Option.bind_some, checkedRam, if_pos]
  · exact ⟨_, rfl⟩
  · refine ⟨List.length_replicate, fun b hb => ?_⟩
    obtain ⟨-, rfl⟩ := List.mem_replicate.mp hb
    decide
theorem zero_vector (w n : Nat) : ∃ g, checkedVector w n (List.replicate n 0) = some g := by
  rw [checkedVector, dif_pos]
  · exact ⟨_, rfl⟩
  · refine ⟨List.length_replicate, fun b hb => ?_⟩
    obtain ⟨-, rfl⟩ := List.mem_replicate.mp hb
    exact Nat.two_pow_pos w
theorem dark_grid : ∃ g, checkedGrid (List.replicate 64 (List.replicate 32 false)) = some g := by
  rw [checkedGrid, dif_pos]
  · exact ⟨_, rfl⟩
  · refine ⟨List.length_replicate, fun c hc => ?_⟩
    obtain ⟨-, rfl⟩ := List.mem_replicate.mp hc
    exact List.length_replicate
theorem witness_ExportImportRoundTrip :
    (∃ t, importState zeroRecord State.reset = .next t) ∧ State.reset.Inv := by
  obtain ⟨m, hm⟩ := zeroRecord_ram
  obtain ⟨v, hv⟩ := zero_vector 8 16
  obtain ⟨stack, hstack⟩ := zero_vector 16 16
  obtain ⟨g, hg⟩ := dark_grid
  obtain ⟨t, ht⟩ : ∃ t, importedState zeroRecord State.reset = some t :=
    ⟨_, importedState_of hm hv (i := 0) rfl (pc := 0) rfl hstack (sp := 0) rfl (dt := 0) rfl (st := 0) rfl hg rfl⟩
  exact ⟨⟨t, importState_of_some ht⟩, rfl⟩

theorem witness_FaultLeavesState :
    faultOf (stepWith 0#8 State.reset) = some (.invalidOpcode 0#16) ∧
    (perform (.step 0#8) State.reset).2 = .fault (.invalidOpcode 0#16) := by decide
theorem witness_FaultLeavesState_commits : ∃ t, stepWith 0#8 (State.reset.withFetchWord 16 0x6A42) = .next t := ⟨_, rfl⟩
theorem witness_FaultRepeats :
    stepWith 0#8 State.reset = .fault (.invalidOpcode 0#16) ∧
    ∀ c ∈ [Command.step 1#8, .tick, .keyDown 3, .keyUp 3, .displayRead, .exportState], replacesState c = false :=
  ⟨rfl, by decide⟩

/-- A host that presses key 0, steps and ticks, over and over. -/
def fairSchedule (n : Nat) : Command :=
  match n % 3 with
  | 0 => .keyDown 0
  | 1 => .step 0#8
  | _ => .tick

theorem fairSchedule_step (n : Nat) : fairSchedule (3 * n + 1) = .step 0#8 := by
  simp only [fairSchedule, show (3 * n + 1) % 3 = 1 by omega]
theorem fairSchedule_tick (n : Nat) : fairSchedule (3 * n + 2) = .tick := by
  simp only [fairSchedule, show (3 * n + 2) % 3 = 2 by omega]
theorem fairSchedule_keyDown (n : Nat) : fairSchedule (3 * n) = .keyDown 0 := by
  simp only [fairSchedule, show 3 * n % 3 = 0 by omega]
theorem fairSchedule_replaces_nothing (n : Nat) : replacesState (fairSchedule n) = false := by
  unfold fairSchedule
  split <;> rfl

/-- A fair host exists, whatever the state it starts from (R424, R345). -/
theorem witness_FairHost (s : State) : FairHost fairSchedule s where
  steps n := ⟨3 * n + 1, 0#8, by omega, fairSchedule_step n⟩
  ticks n := ⟨3 * n + 2, by omega, fairSchedule_tick n⟩
  keys n := by
    refine ⟨3 * n + 1, by omega, ⟨0#8, fairSchedule_step n⟩, 0, ?_⟩
    rw [stateBefore, fairSchedule_keyDown]
    exact Vector.getElem_setIfInBounds_self ..

theorem witness_SelfJumpEndsRun :
    atSelfJump (lastWord 0x1FFE) = true ∧
    ∀ c ∈ [Command.step 1#8, .tick, .keyDown 3, .keyUp 3, .displayRead, .exportState], replacesState c = false := by
  decide
theorem witness_SelfJumpEndsRun_schedule :
    atSelfJump (lastWord 0x1FFE) = true ∧ (∀ n, replacesState (fairSchedule n) = false) ∧ TicksRecur fairSchedule :=
  ⟨by decide, fairSchedule_replaces_nothing, (witness_FairHost State.reset).ticks⟩
theorem witness_AwaitingKeyOutput : awaitingKey (lastWord 0xFF0A) = true := by decide
/-- A schedule that holds a key across a STEP, and one that never does. -/
theorem witness_AwaitingKeyOutput_schedules :
    awaitingKey (lastWord 0xFF0A) = true ∧ (∀ n, replacesState (fairSchedule n) = false) ∧
    KeyEventuallyHeld fairSchedule (lastWord 0xFF0A) ∧ ¬ KeyEventuallyHeld (fun _ => .tick) (lastWord 0xFF0A) := by
  refine ⟨by decide, fairSchedule_replaces_nothing, ?_, ?_⟩
  · obtain ⟨m, -, hm⟩ := (witness_FairHost (lastWord 0xFF0A)).keys 0
    exact ⟨m, hm⟩
  · rintro ⟨n, ⟨rand, h⟩, -⟩
    cases h
theorem witness_HostReadsState :
    ∃ l g, (exportRecord State.reset).ram = some l ∧ (exportRecord State.reset).disp = some g :=
  ⟨_, _, rfl, rfl⟩

end Sys2Proof.Tests
end

namespace Sys2Proof.Machine

/-! SUPPORT. The key wait (10_state.md R39, 45_key_wait.md R230): what FX0A at PC answers with and without a key down, and which
commands keep the instruction at PC. -/

/-! ### The fetched instruction -/

/-- A fetch succeeds exactly when both bytes at PC lie in RAM (R55, R71). -/
theorem fetch_eq_ok {s : State} {op : Word} :
    fetch s = .ok op ↔
      s.pc.toNat ≤ 0xFFE ∧ opcodeOf (s.byteAt s.pc.toNat) (s.byteAt (s.pc.toNat + 1)) = op := by
  by_cases h : s.pc.toNat ≤ 0xFFE
  · simp only [fetch_ok (s := s) (by omega), Except.ok.injEq, h, true_and]
  · simp only [fetch_fault (s := s) (by omega), reduceCtorEq, h, false_and]

/-- The instruction the next step runs: the fetch succeeds and its opcode decodes to `i` (R80). -/
def State.Fetches (s : State) (i : Instr) : Prop := ∃ op, fetch s = .ok op ∧ decode op = some i

theorem State.fetches_iff {s : State} {i : Instr} :
    s.Fetches i ↔
      s.pc.toNat ≤ 0xFFE ∧ decode (opcodeOf (s.byteAt s.pc.toNat) (s.byteAt (s.pc.toNat + 1))) = some i := by
  simp only [State.Fetches, fetch_eq_ok, and_assoc, exists_and_left, exists_eq_left']

/-- The cycle runs the instruction that is fetched (R80). -/
theorem cycleWith_of_fetches {run : Instr → State → StepResult} {s : State} {i : Instr} (h : s.Fetches i) :
    cycleWith run s = run i s := by
  obtain ⟨op, hf, hd⟩ := h
  simp only [cycleWith, hf, attempt_ok, hd]

/-- `t` fetches the instruction `s` fetches, as PC, RAM and the font are the same. -/
structure SameCode (s t : State) : Prop where
  pc : t.pc = s.pc
  ram : t.ram = s.ram
  params : t.params = s.params

theorem SameCode.refl (s : State) : SameCode s s := ⟨rfl, rfl, rfl⟩

theorem SameCode.trans {s t u : State} (hst : SameCode s t) (htu : SameCode t u) : SameCode s u :=
  ⟨htu.pc.trans hst.pc, htu.ram.trans hst.ram, htu.params.trans hst.params⟩

theorem SameCode.fetches {s t : State} {i : Instr} (h : SameCode s t) (hs : s.Fetches i) : t.Fetches i := by
  unfold State.Fetches
  rwa [fetch_congr h.pc h.ram h.params]

/-- Only a STEP, a LOAD or an IMPORT can change the instruction at PC. -/
theorem perform_sameCode {c : Command} (s : State) (hstep : ∀ rand, c ≠ .step rand) (hc : replacesState c = false) :
    SameCode s (perform c s).1 := by
  cases c with
  | load bytes => cases hc
  | importState r => cases hc
  | step rand => exact absurd rfl (hstep rand)
  | tick | keyDown k | keyUp k | displayRead | exportState => exact ⟨rfl, rfl, rfl⟩

/-! ### FX0A at PC (R39, R230) -/

/-- FX0A with all sixteen keys up changes nothing (R230). -/
theorem execLdVxK_of_keys_up {s : State} (x : Reg) (h : ∀ k : Fin 16, s.keys[k.val] = false) :
    execLdVxK x s = .next s := by
  simp only [execLdVxK, lowestKey_none.mpr h]

/-- FX0A with a key down completes (R230). -/
theorem execLdVxK_of_key_down {s : State} (x : Reg) {k : Fin 16} (h : s.keys[k.val] = true) :
    ∃ b, execLdVxK x s = .next (s.setV x b).advance := by
  cases hl : lowestKey s with
  | none => exact absurd (lowestKey_none.mp hl k) (by simp [h])
  | some j => exact ⟨BitVec.ofNat 8 j, by simp only [execLdVxK, hl]⟩

theorem awaitingKey_iff {s : State} :
    awaitingKey s = true ↔ (∃ x, s.Fetches (.ldVxK x)) ∧ ∀ k : Fin 16, s.keys[k.val] = false := by
  rw [← lowestKey_none, ← Option.isNone_iff_eq_none]
  unfold awaitingKey State.Fetches
  cases hf : fetch s with
  | error f => simp
  | ok op =>
    simp only [Except.ok.injEq, exists_eq_left']
    split
    · rename_i x hd
      simp [hd]
    · rename_i hne
      simp only [Bool.false_eq_true, false_iff]
      rintro ⟨⟨x, hd⟩, -⟩
      exact hne x hd

/-- A STEP that finds FX0A at PC and no key down keeps the state. -/
theorem perform_step_waits {s : State} {x : Reg} (rand : Byte) (hs : s.Fetches (.ldVxK x))
    (hup : ∀ k : Fin 16, s.keys[k.val] = false) : (perform (.step rand) s).1 = s := by
  have hrun : stepWith rand s = .next s := (cycleWith_of_fetches hs).trans (execLdVxK_of_keys_up x hup)
  simp only [perform, hrun, settle]

/-- A STEP that finds FX0A at PC and some key down moves PC on. -/
theorem perform_step_leaves {s : State} {x : Reg} (rand : Byte) {k : Fin 16} (hs : s.Fetches (.ldVxK x))
    (hk : s.keys[k.val] = true) : (perform (.step rand) s).1.pc = s.pc + 2#16 := by
  obtain ⟨b, hb⟩ := execLdVxK_of_key_down x hk
  have hrun : stepWith rand s = .next (s.setV x b).advance := (cycleWith_of_fetches hs).trans hb
  simp only [perform, hrun, settle, State.advance_pc, State.setV_pc]

/-! ### The wait along a schedule (R424) -/

/-- A command that is no STEP with a key down keeps a wait's instruction at PC. -/
theorem stateBefore_succ_sameCode {sched : Schedule} {s : State} {x : Reg} {n : Nat}
    (hx : (stateBefore sched s n).Fetches (.ldVxK x)) (hkeep : replacesState (sched n) = false)
    (hheld : ¬ KeyHeldAtStep sched s n) :
    SameCode (stateBefore sched s n) (stateBefore sched s (n + 1)) := by
  by_cases hstep : ∃ rand, sched n = .step rand
  · have hup : ∀ k : Fin 16, (stateBefore sched s n).keys[k.val] = false := fun k =>
      Bool.eq_false_iff.mpr fun hk => hheld ⟨hstep, k, hk⟩
    obtain ⟨rand, hr⟩ := hstep
    rw [stateBefore, hr, perform_step_waits rand hx hup]
    exact SameCode.refl _
  · exact perform_sameCode _ (fun rand hr => hstep ⟨rand, hr⟩) hkeep

/-- Until a key is held across a STEP, the wait's instruction stays at PC. -/
theorem stateBefore_sameCode_of_not_held {sched : Schedule} {s : State} {x : Reg} {n : Nat}
    (hx : s.Fetches (.ldVxK x)) (hkeep : ∀ k, replacesState (sched k) = false)
    (hheld : ∀ k < n, ¬ KeyHeldAtStep sched s k) : SameCode s (stateBefore sched s n) :=
  stateBefore_keeps (SameCode.refl s) fun k hk ih =>
    ih.trans (stateBefore_succ_sameCode (ih.fetches hx) (hkeep k) (hheld k hk))

/-- PC leaves a waiting FX0A if and only if the host holds some key across a STEP: the first such STEP still finds the FX0A. -/
theorem keyWait_ends_iff {sched : Schedule} {s : State} {x : Reg} (hx : s.Fetches (.ldVxK x))
    (hkeep : ∀ n, replacesState (sched n) = false) :
    (∃ n, (stateBefore sched s n).pc ≠ s.pc) ↔ KeyEventuallyHeld sched s := by
  constructor
  · rintro ⟨n, hpc⟩
    by_contra hnever
    exact hpc (stateBefore_sameCode_of_not_held hx hkeep fun k _ hk => hnever ⟨k, hk⟩).pc
  · intro hever
    classical
    have hfirst := stateBefore_sameCode_of_not_held hx hkeep fun k hk => Nat.find_min hever hk
    obtain ⟨⟨rand, hr⟩, k, hk⟩ := Nat.find_spec hever
    refine ⟨Nat.find hever + 1, ?_⟩
    rw [stateBefore, hr, perform_step_leaves rand (hfirst.fetches hx) hk, hfirst.pc]
    simp

/-- Settles O58: FX0A is fetched with all keys up, a step then keeps the state, and the wait ends by the first STEP with a key
held. -/
theorem awaitingKeyOutput : Obligations.AwaitingKeyOutput := by
  unfold Obligations.AwaitingKeyOutput
  refine ⟨fun s => ?_, fun s h => ?_, fun s sched h hkeep => ?_⟩
  · simp only [awaitingKey_iff, State.fetches_iff, exists_and_left, and_assoc]
  · obtain ⟨⟨x, hx⟩, hup⟩ := awaitingKey_iff.mp h
    exact (cycleWith_of_fetches hx).trans (execLdVxK_of_keys_up x hup)
  · obtain ⟨⟨x, hx⟩, -⟩ := awaitingKey_iff.mp h
    exact keyWait_ends_iff hx hkeep

end Sys2Proof.Machine

namespace Sys2Proof

/-! SUPPORT. The opcode's fields and its map (30_encoding.md R72 to R77): decoding and encoding are inverse, each row of the map
selects the words of its format (R74), and a mnemonic names one row. -/

/-- Settles O6: each field is the digits R72 gives. -/
theorem opcodeFields : Obligations.OpcodeFields := fun op =>
  ⟨opFamily_toNat op, opX_val op, opY_val op, opN_toNat op, opNN_toNat op, opNNN_toNat op⟩

/-! ### A word is put together from its fields (R74) -/

theorem encodeNNN_of_opFamily {op : Word} {f : BitVec 4} (hf : opFamily op = f) : encodeNNN f (opNNN op) = op := by
  subst hf
  apply BitVec.eq_of_toNat_eq
  rw [encodeNNN_toNat, opFamily_toNat, opNNN_toNat]
  omega

theorem encodeXNN_of_opFamily {op : Word} {f : BitVec 4} (hf : opFamily op = f) :
    encodeXNN f (opX op) (opNN op) = op := by
  subst hf
  apply BitVec.eq_of_toNat_eq
  rw [encodeXNN_toNat, opFamily_toNat, opX_val, opNN_toNat]
  omega

theorem encodeXYN_of_opFamily {op : Word} {f : BitVec 4} (hf : opFamily op = f) :
    encodeXYN f (opX op) (opY op) (opN op) = op := by
  subst hf
  apply BitVec.eq_of_toNat_eq
  rw [encodeXYN_toNat, opFamily_toNat, opX_val, opY_val, opN_toNat]
  omega

/-- Format F_X: the low byte is fixed. -/
theorem encodeXNN_of_opNN {op : Word} {f : BitVec 4} {nn : Byte} (hf : opFamily op = f) (hnn : opNN op = nn) :
    encodeXNN f (opX op) nn = op := hnn ▸ encodeXNN_of_opFamily hf

/-- Format F_XY: the low nibble is fixed. -/
theorem encodeXYN_of_opN {op : Word} {f n : BitVec 4} (hf : opFamily op = f) (hn : opN op = n) :
    encodeXYN f (opX op) (opY op) n = op := hn ▸ encodeXYN_of_opFamily hf

/-! ### Decoding and encoding are inverse (R75) -/

/-- The decoder reads back every instruction, whatever its operands. -/
@[simp] theorem decode_encode (i : Instr) : decode (encode i) = some i := by
  cases i with
  | cls | ret => rfl
  | _ => simp [encode, decode, decodeFamily8, decodeFamilyE, decodeFamilyF]

theorem encode_of_decodeFamily8 {op : Word} {i : Instr} (hf : opFamily op = 0x8#4)
    (h : decodeFamily8 op = some i) : encode i = op := by
  unfold decodeFamily8 at h
  split at h <;> cases h <;> exact encodeXYN_of_opN hf (BitVec.eq_of_toNat_eq ‹_›)

theorem encode_of_decodeFamilyE {op : Word} {i : Instr} (hf : opFamily op = 0xE#4)
    (h : decodeFamilyE op = some i) : encode i = op := by
  unfold decodeFamilyE at h
  split at h <;> cases h <;> exact encodeXNN_of_opNN hf (BitVec.eq_of_toNat_eq ‹_›)

theorem encode_of_decodeFamilyF {op : Word} {i : Instr} (hf : opFamily op = 0xF#4)
    (h : decodeFamilyF op = some i) : encode i = op := by
  unfold decodeFamilyF at h
  split at h <;> cases h <;> exact encodeXNN_of_opNN hf (BitVec.eq_of_toNat_eq ‹_›)

/-- Every opcode that decodes is the encoding of what it decodes to. Arm `h_(k + 1)` of the decoder is family k; the families of
one format share an argument. -/
theorem encode_of_decode {op : Word} {i : Instr} (h : decode op = some i) : encode i = op := by
  unfold decode at h
  split at h
  case h_1 =>
    split_ifs at h with hcls hret
    · cases h; exact hcls.symm
    · cases h; exact hret.symm
  case h_2 hf | h_3 hf | h_11 hf | h_12 hf =>
    cases h
    exact encodeNNN_of_opFamily (BitVec.eq_of_toNat_eq hf)
  case h_4 hf | h_5 hf | h_7 hf | h_8 hf | h_13 hf =>
    cases h
    exact encodeXNN_of_opFamily (BitVec.eq_of_toNat_eq hf)
  case h_6 hf | h_10 hf =>
    split_ifs at h with hn
    cases h
    exact encodeXYN_of_opN (BitVec.eq_of_toNat_eq hf) hn
  case h_9 hf => exact encode_of_decodeFamily8 (BitVec.eq_of_toNat_eq hf) h
  case h_14 hf =>
    cases h
    exact encodeXYN_of_opFamily (BitVec.eq_of_toNat_eq hf)
  case h_15 hf => exact encode_of_decodeFamilyE (BitVec.eq_of_toNat_eq hf) h
  case h_16 hf => exact encode_of_decodeFamilyF (BitVec.eq_of_toNat_eq hf) h
  case h_17 => cases h

theorem decode_eq_some_iff {op : Word} {i : Instr} : decode op = some i ↔ encode i = op :=
  ⟨encode_of_decode, fun h => h ▸ decode_encode i⟩

/-! ### What a row of the map selects (R77), by format (R74) -/

theorem OpcodeRow.selects_iff {r : OpcodeRow} {op : Word} : r.selects op = true ↔ op &&& r.mask = r.pattern :=
  beq_iff_eq

/-- Each opcode the row selects is the encoding of an instruction of the row's mnemonic. -/
def OpcodeRow.Covered (r : OpcodeRow) : Prop :=
  ∀ op : Word, r.selects op = true → ∃ i, encode i = op ∧ i.mnemonic = r.mnemonic

theorem covered_word {name : String} {w : Word} (i : Instr) (henc : encode i = w) (hname : i.mnemonic = name) :
    OpcodeRow.Covered ⟨name, w, 0xFFFF#16⟩ := by
  intro op h
  have hop : op &&& BitVec.allOnes 16 = w := OpcodeRow.selects_iff.mp h
  rw [BitVec.and_allOnes] at hop
  exact ⟨i, henc.trans hop.symm, hname⟩

theorem covered_NNN {name : String} (f : BitVec 4) (mk : BitVec 12 → Instr)
    (henc : ∀ nnn, encode (mk nnn) = encodeNNN f nnn) (hname : ∀ nnn, (mk nnn).mnemonic = name) :
    OpcodeRow.Covered ⟨name, encodeNNN f 0#12, 0xF000#16⟩ := fun op h =>
  have hf := (and_F000_iff op f).mp (OpcodeRow.selects_iff.mp h)
  ⟨mk (opNNN op), (henc _).trans (encodeNNN_of_opFamily hf), hname _⟩

theorem covered_XNN {name : String} (f : BitVec 4) (mk : Reg → Byte → Instr)
    (henc : ∀ x nn, encode (mk x nn) = encodeXNN f x nn) (hname : ∀ x nn, (mk x nn).mnemonic = name) :
    OpcodeRow.Covered ⟨name, encodeNNN f 0#12, 0xF000#16⟩ := fun op h =>
  have hf := (and_F000_iff op f).mp (OpcodeRow.selects_iff.mp h)
  ⟨mk (opX op) (opNN op), (henc _ _).trans (encodeXNN_of_opFamily hf), hname _ _⟩

theorem covered_XYN {name : String} (f : BitVec 4) (mk : Reg → Reg → BitVec 4 → Instr)
    (henc : ∀ x y n, encode (mk x y n) = encodeXYN f x y n) (hname : ∀ x y n, (mk x y n).mnemonic = name) :
    OpcodeRow.Covered ⟨name, encodeNNN f 0#12, 0xF000#16⟩ := fun op h =>
  have hf := (and_F000_iff op f).mp (OpcodeRow.selects_iff.mp h)
  ⟨mk (opX op) (opY op) (opN op), (henc _ _ _).trans (encodeXYN_of_opFamily hf), hname _ _ _⟩

theorem covered_XY {name : String} (f n : BitVec 4) (mk : Reg → Reg → Instr)
    (henc : ∀ x y, encode (mk x y) = encodeXYN f x y n) (hname : ∀ x y, (mk x y).mnemonic = name) :
    OpcodeRow.Covered ⟨name, encodeXYN f 0 0 n, 0xF00F#16⟩ := fun op h =>
  have ⟨hf, hn⟩ := (and_F00F_iff op f n).mp (OpcodeRow.selects_iff.mp h)
  ⟨mk (opX op) (opY op), (henc _ _).trans (encodeXYN_of_opN hf hn), hname _ _⟩

theorem covered_X {name : String} (f : BitVec 4) (nn : Byte) (mk : Reg → Instr)
    (henc : ∀ x, encode (mk x) = encodeXNN f x nn) (hname : ∀ x, (mk x).mnemonic = name) :
    OpcodeRow.Covered ⟨name, encodeXNN f 0 nn, 0xF0FF#16⟩ := fun op h =>
  have ⟨hf, hnn⟩ := (and_F0FF_iff op f nn).mp (OpcodeRow.selects_iff.mp h)
  ⟨mk (opX op), (henc _).trans (encodeXNN_of_opNN hf hnn), hname _⟩

theorem covered_of_mem_opcodeRowsLow : ∀ r ∈ opcodeRowsLow, r.Covered := by
  simp only [opcodeRowsLow, List.forall_mem_cons]
  exact ⟨covered_word .cls rfl rfl, covered_word .ret rfl rfl,
    covered_NNN 0x1#4 .jp (fun _ => rfl) (fun _ => rfl),
    covered_NNN 0x2#4 .call (fun _ => rfl) (fun _ => rfl),
    covered_XNN 0x3#4 .seImm (fun _ _ => rfl) (fun _ _ => rfl),
    covered_XNN 0x4#4 .sneImm (fun _ _ => rfl) (fun _ _ => rfl),
    covered_XY 0x5#4 0x0#4 .seReg (fun _ _ => rfl) (fun _ _ => rfl),
    covered_XNN 0x6#4 .ldImm (fun _ _ => rfl) (fun _ _ => rfl),
    covered_XNN 0x7#4 .addImm (fun _ _ => rfl) (fun _ _ => rfl),
    List.forall_mem_nil _⟩

theorem covered_of_mem_opcodeRowsMid : ∀ r ∈ opcodeRowsMid, r.Covered := by
  simp only [opcodeRowsMid, List.forall_mem_cons]
  exact ⟨covered_XY 0x8#4 0x0#4 .ldReg (fun _ _ => rfl) (fun _ _ => rfl),
    covered_XY 0x8#4 0x1#4 .orReg (fun _ _ => rfl) (fun _ _ => rfl),
    covered_XY 0x8#4 0x2#4 .andReg (fun _ _ => rfl) (fun _ _ => rfl),
    covered_XY 0x8#4 0x3#4 .xorReg (fun _ _ => rfl) (fun _ _ => rfl),
    covered_XY 0x8#4 0x4#4 .addReg (fun _ _ => rfl) (fun _ _ => rfl),
    covered_XY 0x8#4 0x5#4 .sub (fun _ _ => rfl) (fun _ _ => rfl),
    covered_XY 0x8#4 0x6#4 .shr (fun _ _ => rfl) (fun _ _ => rfl),
    covered_XY 0x8#4 0x7#4 .subn (fun _ _ => rfl) (fun _ _ => rfl),
    covered_XY 0x8#4 0xE#4 .shl (fun _ _ => rfl) (fun _ _ => rfl),
    covered_XY 0x9#4 0x0#4 .sneReg (fun _ _ => rfl) (fun _ _ => rfl),
    covered_NNN 0xA#4 .ldI (fun _ => rfl) (fun _ => rfl),
    covered_NNN 0xB#4 .jpV0 (fun _ => rfl) (fun _ => rfl),
    covered_XNN 0xC#4 .rnd (fun _ _ => rfl) (fun _ _ => rfl),
    covered_XYN 0xD#4 .drw (fun _ _ _ => rfl) (fun _ _ _ => rfl),
    List.forall_mem_nil _⟩

theorem covered_of_mem_opcodeRowsHigh : ∀ r ∈ opcodeRowsHigh, r.Covered := by
  simp only [opcodeRowsHigh, List.forall_mem_cons]
  exact ⟨covered_X 0xE#4 0x9E#8 .skp (fun _ => rfl) (fun _ => rfl),
    covered_X 0xE#4 0xA1#8 .sknp (fun _ => rfl) (fun _ => rfl),
    covered_X 0xF#4 0x07#8 .ldVxDt (fun _ => rfl) (fun _ => rfl),
    covered_X 0xF#4 0x0A#8 .ldVxK (fun _ => rfl) (fun _ => rfl),
    covered_X 0xF#4 0x15#8 .ldDtVx (fun _ => rfl) (fun _ => rfl),
    covered_X 0xF#4 0x18#8 .ldStVx (fun _ => rfl) (fun _ => rfl),
    covered_X 0xF#4 0x1E#8 .addIVx (fun _ => rfl) (fun _ => rfl),
    covered_X 0xF#4 0x29#8 .ldFVx (fun _ => rfl) (fun _ => rfl),
    covered_X 0xF#4 0x33#8 .ldBVx (fun _ => rfl) (fun _ => rfl),
    covered_X 0xF#4 0x55#8 .ldMemVx (fun _ => rfl) (fun _ => rfl),
    covered_X 0xF#4 0x65#8 .ldVxMem (fun _ => rfl) (fun _ => rfl),
    List.forall_mem_nil _⟩

theorem covered_of_mem_opcodeMap {r : OpcodeRow} (hr : r ∈ opcodeMap) : r.Covered := by
  rcases List.mem_append.mp hr with hlow | hrest
  · exact covered_of_mem_opcodeRowsLow r hlow
  · rcases List.mem_append.mp hrest with hmid | hhigh
    · exact covered_of_mem_opcodeRowsMid r hmid
    · exact covered_of_mem_opcodeRowsHigh r hhigh

/-! ### A mnemonic names one row -/

theorem nodup_mnemonics : (opcodeMap.map OpcodeRow.mnemonic).Nodup := by decide

theorem eq_of_mnemonic_eq {r r' : OpcodeRow} (hr : r ∈ opcodeMap) (hr' : r' ∈ opcodeMap)
    (h : r.mnemonic = r'.mnemonic) : r = r' :=
  List.inj_on_of_nodup_map nodup_mnemonics hr hr' h

namespace Laws.EncodeRow

/-- The rows of Laws/PerInstr.lean, gathered. -/
theorem statement : ∀ i : Instr, Statement i
  | .cls => cls
  | .ret => ret
  | .jp nnn => jp nnn
  | .call nnn => call nnn
  | .seImm x nn => seImm x nn
  | .sneImm x nn => sneImm x nn
  | .seReg x y => seReg x y
  | .ldImm x nn => ldImm x nn
  | .addImm x nn => addImm x nn
  | .ldReg x y => ldReg x y
  | .orReg x y => orReg x y
  | .andReg x y => andReg x y
  | .xorReg x y => xorReg x y
  | .addReg x y => addReg x y
  | .sub x y => sub x y
  | .shr x y => shr x y
  | .subn x y => subn x y
  | .shl x y => shl x y
  | .sneReg x y => sneReg x y
  | .ldI nnn => ldI nnn
  | .jpV0 nnn => jpV0 nnn
  | .rnd x nn => rnd x nn
  | .drw x y n => drw x y n
  | .skp x => skp x
  | .sknp x => sknp x
  | .ldVxDt x => ldVxDt x
  | .ldVxK x => ldVxK x
  | .ldDtVx x => ldDtVx x
  | .ldStVx x => ldStVx x
  | .addIVx x => addIVx x
  | .ldFVx x => ldFVx x
  | .ldBVx x => ldBVx x
  | .ldMemVx x => ldMemVx x
  | .ldVxMem x => ldVxMem x

end Laws.EncodeRow

/-- The row of an instruction's mnemonic selects its opcode. -/
theorem selects_encode {r : OpcodeRow} {i : Instr} (hr : r ∈ opcodeMap) (hname : i.mnemonic = r.mnemonic) :
    r.selects (encode i) = true := by
  obtain ⟨-, row, hrow, hrowName, hsel⟩ := Laws.EncodeRow.statement i
  obtain rfl := eq_of_mnemonic_eq hrow hr (hrowName.trans hname)
  exact OpcodeRow.selects_iff.mpr hsel

/-- A row selects exactly the opcodes that decode to an instruction of its mnemonic (R77). -/
theorem selects_iff_decode {r : OpcodeRow} (hr : r ∈ opcodeMap) {op : Word} :
    r.selects op = true ↔ ∃ i, decode op = some i ∧ i.mnemonic = r.mnemonic := by
  simp only [decode_eq_some_iff]
  constructor
  · exact covered_of_mem_opcodeMap hr op
  · rintro ⟨i, rfl, hname⟩
    exact selects_encode hr hname

/-- Settles O9: a row selects what decodes to its mnemonic; an opcode decodes to at most one instruction, so rows that both
select it share a mnemonic and are one row. -/
theorem decodeFollowsOpcodeMap : Obligations.DecodeFollowsOpcodeMap := by
  refine ⟨fun op r hr => selects_iff_decode hr, fun op r1 hr1 r2 hr2 h1 h2 => ?_⟩
  obtain ⟨i, hi, hname1⟩ := (selects_iff_decode hr1).mp h1
  obtain ⟨j, hj, hname2⟩ := (selects_iff_decode hr2).mp h2
  obtain rfl : i = j := Option.some.inj (hi.symm.trans hj)
  exact eq_of_mnemonic_eq hr1 hr2 (hname1.symm.trans hname2)

/-! ### Words of the map, and the fetch -/

/-- A table word decodes as the decoder reads its 16 bits. -/
theorem decodeTableWord_16 (op : Word) : decodeTableWord 16 op.toNat = decode op := by
  have hbytes : tableBytes 16 op.toNat = opcodeBytes op ++ [] := by
    simp [tableBytes, Nat.mod_eq_of_lt op.isLt]
  unfold decodeTableWord
  cases h : decode op with
  | none => simp only [hbytes, decodeBytes_opcodeBytes_none h]
  | some i => simp only [hbytes, decodeBytes_opcodeBytes_some h]

theorem decodeTableWord_encode {w : Nat} {i : Instr} (h : (encode i).toNat = w) : decodeTableWord 16 w = some i := by
  rw [← h, decodeTableWord_16, decode_encode]

/-- Settles O11: six of the words are the encodings of the instructions they stand for; 01E0 is neither word of family 0. -/
theorem knownWordsDecode : Obligations.KnownWordsDecode :=
  ⟨decodeTableWord_encode rfl, decodeTableWord_encode rfl, decodeTableWord_encode rfl, decodeTableWord_encode rfl,
    decodeTableWord_encode rfl, decodeTableWord_encode rfl, (decodeTableWord_16 0x01E0#16).trans rfl⟩

/-- Settles O2: within RAM the fetch joins the two bytes at PC, the one at PC high; past it the range check faults. -/
theorem fetchReadsBigEndian : Obligations.FetchReadsBigEndian :=
  ⟨fun _ h => ⟨_, Machine.fetch_ok h, opcodeOf_toNat _ _⟩, fun _ h => Machine.fetch_fault h⟩

end Sys2Proof

namespace Sys2Proof.Machine

/-! SUPPORT. Control flow (40_control_flow.md R100 to R105): the opcodes of format F_NNN decode by their family, address operands
keep their value, and what each of the five instructions answers. -/

/-! ### Decoding by family (R74, R75) -/

/-- An opcode of a family of format F_NNN decodes to that family's instruction with the opcode's NNN. -/
theorem decode_of_and_F000 {op : Word} {f : BitVec 4} {i : Instr} (h : op &&& 0xF000#16 = encodeNNN f 0#12)
    (henc : encode i = encodeNNN f (opNNN op)) : decode op = some i :=
  decode_eq_some_iff.mpr (henc.trans (encodeNNN_of_opFamily ((and_F000_iff op f).mp h)))

/-! ### Addresses (R73) -/

theorem addrOperand_eq_ofNat (nnn : BitVec 12) : addrOperand nnn = BitVec.ofNat 16 nnn.toNat :=
  (BitVec.ofNat_toNat 16 nnn).symm

@[simp] theorem addrOperand_toNat (nnn : BitVec 12) : (addrOperand nnn).toNat = nnn.toNat :=
  BitVec.toNat_setWidth_of_le (by decide)

@[simp] theorem zext16_toNat (b : Byte) : (zext16 b).toNat = b.toNat :=
  BitVec.toNat_setWidth_of_le (by decide)

/-- NNN + V0 stays far below 2^16, so the 16-bit sum is exact (R105). -/
theorem addrOperand_add_zext16_toNat (nnn : BitVec 12) (b : Byte) :
    (addrOperand nnn + zext16 b).toNat = nnn.toNat + b.toNat := by
  rw [BitVec.toNat_add, addrOperand_toNat, zext16_toNat]
  omega

/-- The return address of a CALL, as R104 writes it (D10). -/
theorem add_two_eq_ofNat (w : Word) : w + 2#16 = BitVec.ofNat 16 ((w.toNat + 2) % 65536) := by
  apply BitVec.eq_of_toNat_eq
  rw [BitVec.toNat_add, BitVec.toNat_ofNat, BitVec.toNat_ofNat]
  omega

theorem State.setPc_of_eq {s : State} {w : Word} (h : w = s.pc) : s.setPc w = s := by
  subst h
  rfl

/-! ### What RET and CALL answer (R102, R104) -/

theorem execRet_of_empty {s : State} (h : s.sp.val = 0) : execRet s = .fault (.stackUnderflow s.pc) := by
  rw [execRet, popStack_empty h, attempt_error]

theorem execRet_of_live {s : State} {k : Fin 16} (h : s.sp.val = k.val + 1) :
    execRet s = .next { s with pc := s.stack[k.val], sp := k.castSucc } := by
  rw [execRet, popStack_ok h, attempt_ok]
  rfl

theorem execCall_of_full {s : State} (nnn : BitVec 12) (h : s.sp.val = 16) :
    execCall nnn s = .fault (.stackOverflow s.pc) := by
  rw [execCall, pushStack_full _ h, attempt_error]

theorem execCall_of_room {s : State} (nnn : BitVec 12) {k : Fin 16} (h : s.sp.val = k.val) :
    execCall nnn s =
      .next { s with stack := s.stack.set k.val (s.pc + 2#16), sp := k.succ, pc := addrOperand nnn } := by
  rw [execCall, pushStack_ok _ h, attempt_ok]
  rfl

/-! ### The statements -/

/-- Settles O12: an opcode decodes to CLS when it is CLS's encoding, and the grid CLS shows is the cleared one. -/
theorem clearDisplay : Obligations.ClearDisplay :=
  ⟨fun _ => decode_eq_some_iff.trans eq_comm, fun _ => ⟨clearGrid, getPixel_clearGrid, rfl⟩⟩

/-- Settles O13: an opcode decodes to RET when it is RET's encoding, and RET faults or pops as the stack is empty or not. -/
theorem returnPopsStack : Obligations.ReturnPopsStack :=
  ⟨fun _ => decode_eq_some_iff.trans eq_comm, fun _ => execRet_of_empty, fun _ _ => execRet_of_live⟩

/-- Settles O14: the target is NNN zero-extended; where PC is that address already, writing it changes nothing. -/
theorem jumpSetsPc : Obligations.JumpSetsPc := by
  refine ⟨fun op h => decode_of_and_F000 (f := 0x1#4) h rfl, fun s nnn => ?_, fun s nnn h => ?_⟩
  · rw [← addrOperand_eq_ofNat]
    rfl
  · have htarget : addrOperand nnn = s.pc := BitVec.eq_of_toNat_eq ((addrOperand_toNat nnn).trans h.symm)
    exact congrArg Host.Outcome.next (State.setPc_of_eq htarget)

/-- Settles O15: CALL faults on a full stack; with room it pushes PC + 2 and jumps. -/
theorem callPushesReturnAddress : Obligations.CallPushesReturnAddress := by
  refine ⟨fun op h => decode_of_and_F000 (f := 0x2#4) h rfl, fun s nnn => execCall_of_full nnn, fun s nnn k h => ?_⟩
  rw [← add_two_eq_ofNat, ← addrOperand_eq_ofNat]
  exact execCall_of_room nnn h

/-- Settles O16: the sum of the zero-extended NNN and V0 is exact, at most 0xFFF + 0xFF. -/
theorem jumpAddsV0 : Obligations.JumpAddsV0 := by
  refine ⟨fun op h => decode_of_and_F000 (f := 0xB#4) h rfl, fun s nnn => ?_⟩
  have hsum := addrOperand_add_zext16_toNat nnn (s.getV 0)
  exact ⟨addrOperand nnn + zext16 (s.getV 0), hsum, by omega, rfl⟩

end Sys2Proof.Machine

namespace Sys2Proof.Machine

/-! SUPPORT. Conditional skips (41_conditional_skip.md R120 to R126): the opcodes of formats F_XNN, F_XY and F_X decode by their
fixed digits, a skip moves PC by 4 or by 2, and when the key a register names is down. -/

/-! ### Decoding by the fixed digits (R74 to R76) -/

/-- An opcode of a family of format F_XNN decodes to that family's instruction with the opcode's X and NN. -/
theorem decode_of_and_F000_XNN {op : Word} {f : BitVec 4} {i : Instr} (h : op &&& 0xF000#16 = encodeNNN f 0#12)
    (henc : encode i = encodeXNN f (opX op) (opNN op)) : decode op = some i :=
  decode_eq_some_iff.mpr (henc.trans (encodeXNN_of_opFamily ((and_F000_iff op f).mp h)))

/-- An opcode of format F_XY decodes by its family and low nibble, with the opcode's X and Y. -/
theorem decode_of_and_F00F {op : Word} {f n : BitVec 4} {i : Instr} (h : op &&& 0xF00F#16 = encodeXYN f 0 0 n)
    (henc : encode i = encodeXYN f (opX op) (opY op) n) : decode op = some i := by
  obtain ⟨hf, hn⟩ := (and_F00F_iff op f n).mp h
  exact decode_eq_some_iff.mpr (henc.trans (encodeXYN_of_opN hf hn))

/-- An opcode of format F_X decodes by its family and low byte, with the opcode's X. -/
theorem decode_of_and_F0FF {op : Word} {f : BitVec 4} {nn : Byte} {i : Instr} (h : op &&& 0xF0FF#16 = encodeXNN f 0 nn)
    (henc : encode i = encodeXNN f (opX op) nn) : decode op = some i := by
  obtain ⟨hf, hnn⟩ := (and_F0FF_iff op f nn).mp h
  exact decode_eq_some_iff.mpr (henc.trans (encodeXNN_of_opNN hf hnn))

/-! ### Where a skip goes (R120) -/

/-- The new PC from the exact sum, as R120 writes it (D10); nothing else changes. -/
theorem State.skipIf_eq (s : State) (c : Bool) :
    s.skipIf c = { s with pc := BitVec.ofNat 16 (s.pc.toNat + if c then 4 else 2) } := by
  have hpc (n : Nat) : BitVec.ofNat 16 (s.pc.toNat + n) = s.pc + BitVec.ofNat 16 n := by
    rw [BitVec.ofNat_add, BitVec.ofNat_toNat, BitVec.setWidth_eq]
  cases c <;> rw [hpc] <;> rfl

theorem State.skipIf_bytes_eq (s : State) (a b : Byte) :
    s.skipIf (decide (a = b)) =
      { s with pc := BitVec.ofNat 16 (s.pc.toNat + if a.toNat = b.toNat then 4 else 2) } := by
  simp only [State.skipIf_eq, decide_eq_true_eq, BitVec.toNat_inj]

theorem State.skipIf_bytes_ne (s : State) (a b : Byte) :
    s.skipIf (decide (a ≠ b)) =
      { s with pc := BitVec.ofNat 16 (s.pc.toNat + if a.toNat = b.toNat then 2 else 4) } := by
  simp only [State.skipIf_eq, decide_eq_true_eq, BitVec.toNat_inj, ne_eq, ite_not]

/-! ### The key a register names (R125, R327) -/

/-- The key is down exactly when the register's whole value is the number of a key that is down (D15). -/
theorem keyOperandDown_iff {s : State} {x : Reg} :
    keyOperandDown s x = true ↔ ∃ k : Fin 16, (s.getV x).toNat = k.val ∧ s.keys[k.val] = true := by
  rw [keyOperandDown]
  by_cases hlt : (s.getV x).toNat < 16
  · rw [s.isPressed_of_lt hlt]
    constructor
    · exact fun hdown => ⟨⟨_, hlt⟩, rfl, hdown⟩
    · rintro ⟨k, hk, hdown⟩
      simpa only [hk] using hdown
  · rw [s.isPressed_of_ge (Nat.not_lt.mp hlt)]
    constructor
    · intro hfalse
      cases hfalse
    · rintro ⟨k, hk, -⟩
      omega

theorem keyOperandDown_eq_false {s : State} {x : Reg}
    (h : ∀ k : Fin 16, (s.getV x).toNat = k.val → s.keys[k.val] = false) : keyOperandDown s x = false := by
  rw [Bool.eq_false_iff, ne_eq, keyOperandDown_iff]
  rintro ⟨k, hk, hdown⟩
  exact absurd hdown (Bool.eq_false_iff.mp (h k hk))

/-- EX9E and EXA1 go opposite ways by the one key (R125, R126). -/
theorem exec_skp_sknp_of_keyOperandDown {s : State} {x : Reg} {c : Bool} (h : keyOperandDown s x = c) :
    exec (.skp x) s = .next (s.skipIf c) ∧ exec (.sknp x) s = .next (s.skipIf (!c)) := by
  subst h
  exact ⟨rfl, rfl⟩

/-! ### The statements -/

/-- Settles O17: each pattern fixes the digits its skip's encoding fixes, and bytes are equal when their values are. -/
theorem skipOnCompare : Obligations.SkipOnCompare :=
  ⟨fun _ h => decode_of_and_F000_XNN (f := 0x3#4) h rfl, fun _ h => decode_of_and_F000_XNN (f := 0x4#4) h rfl,
    fun _ h => decode_of_and_F00F (f := 0x5#4) (n := 0x0#4) h rfl,
    fun _ h => decode_of_and_F00F (f := 0x9#4) (n := 0x0#4) h rfl,
    fun s x nn => congrArg Host.Outcome.next (s.skipIf_bytes_eq (s.getV x) nn),
    fun s x nn => congrArg Host.Outcome.next (s.skipIf_bytes_ne (s.getV x) nn),
    fun s x y => congrArg Host.Outcome.next (s.skipIf_bytes_eq (s.getV x) (s.getV y)),
    fun s x y => congrArg Host.Outcome.next (s.skipIf_bytes_ne (s.getV x) (s.getV y))⟩

/-- Settles O18: the two hypotheses say whether the key VX names is down, and each skip goes by that. -/
theorem skipOnKey : Obligations.SkipOnKey :=
  ⟨fun _ h => decode_of_and_F0FF (f := 0xE#4) (nn := 0x9E#8) h rfl,
    fun _ h => decode_of_and_F0FF (f := 0xE#4) (nn := 0xA1#8) h rfl,
    fun _ _ k hk hdown => exec_skp_sknp_of_keyOperandDown (keyOperandDown_iff.mpr ⟨k, hk, hdown⟩),
    fun _ _ hup => exec_skp_sknp_of_keyOperandDown (keyOperandDown_eq_false hup)⟩

end Sys2Proof.Machine

namespace Sys2Proof.Machine

/-! SUPPORT. Register load and arithmetic (42_register_arith.md R140 to R151): the state an instruction answers with a result
and with a flagged result, the value of each byte result, and the byte VF gets from each flag. -/

/-! ### Writing the result (R12, R22) -/

theorem setResult_eq (s : State) (x : Reg) (r : Byte) :
    setResult s x r = .next { s with v := s.v.set x.val r, pc := s.pc + 2#16 } := rfl

/-- The byte `f` of the flag is written last, so it stays where X is 0xF too (D12). -/
theorem setFlagged_eq (s : State) (x : Reg) (r : Byte) {c : Bool} {f : Byte} (h : flagByte c = f) :
    setFlagged s x r c = .next { s with v := (s.v.set x.val r).set 15 f, pc := s.pc + 2#16 } := by
  subst h
  rfl

/-! ### The results as numbers (R146 to R151) -/

@[simp] theorem addByte_toNat (a b : Byte) : (addByte a b).toNat = (a.toNat + b.toNat) % 256 :=
  BitVec.toNat_ofNat _ _

/-- The model adds 256 before it subtracts, so its natural number difference is the integer one modulo 256. -/
theorem subByte_toNat (a b : Byte) : ((subByte a b).toNat : Int) = ((a.toNat : Int) - b.toNat) % 256 := by
  have hb : b.toNat < 256 := b.isLt
  have hsub : (subByte a b).toNat = (a.toNat + 256 - b.toNat) % 256 := BitVec.toNat_ofNat _ _
  omega

/-- Half of a byte is a byte, so the result is not reduced. -/
@[simp] theorem shiftRight_toNat (a : Byte) : (shiftRight a).toNat = a.toNat / 2 := by
  have ha : a.toNat < 256 := a.isLt
  exact (BitVec.toNat_ofNat _ _).trans (Nat.mod_eq_of_lt (by omega))

@[simp] theorem shiftLeft_toNat (a : Byte) : (shiftLeft a).toNat = a.toNat * 2 % 256 :=
  BitVec.toNat_ofNat _ _

/-! ### The flags (R146 to R150) -/

theorem flagByte_decide (p : Prop) [Decidable p] : flagByte (decide p) = if p then 1#8 else 0#8 := by
  simp only [flagByte, decide_eq_true_eq]

theorem flagByte_carry (a b : Byte) : flagByte (carry a b) = if 255 < a.toNat + b.toNat then 1#8 else 0#8 :=
  flagByte_decide _

theorem flagByte_noBorrow (a b : Byte) : flagByte (noBorrow a b) = if b.toNat ≤ a.toNat then 1#8 else 0#8 :=
  flagByte_decide _

/-- A bit as the byte VF gets, from the value it has in the number. -/
theorem flagByte_getLsbD (a : Byte) (k : Nat) :
    flagByte (a.getLsbD k) = BitVec.ofNat 8 (a.toNat / 2 ^ k % 2) := by
  rw [BitVec.getLsbD, Nat.testBit_eq_decide_div_mod_eq, flagByte_decide]
  obtain hbit | hbit := Nat.mod_two_eq_zero_or_one (a.toNat / 2 ^ k) <;> rw [hbit] <;> rfl

theorem flagByte_outRight (a : Byte) : flagByte (outRight a) = BitVec.ofNat 8 (a.toNat % 2) := by
  rw [outRight, flagByte_getLsbD, pow_zero, Nat.div_one]

/-- Above bit 7 a byte has nothing, so bit 7 is the whole quotient. -/
theorem flagByte_outLeft (a : Byte) : flagByte (outLeft a) = BitVec.ofNat 8 (a.toNat / 128) := by
  have ha : a.toNat < 256 := a.isLt
  have hquot : a.toNat / 2 ^ 7 % 2 = a.toNat / 128 := by omega
  rw [outLeft, flagByte_getLsbD, hquot]

/-! ### The source of a shift (R148, R150) -/

theorem shiftOperand_eq (s : State) (x y : Reg) :
    shiftOperand s x y = if s.params.shiftSource = .vx then s.getV x else s.getV y := by
  rw [shiftOperand]
  cases s.params.shiftSource <;> rfl

/-! ### The statements -/

/-- Settles O19: both instructions write a result without a flag. -/
theorem loadAndCopyRegister : Obligations.LoadAndCopyRegister :=
  ⟨fun _ h => decode_of_and_F000_XNN (f := 0x6#4) h rfl,
    fun _ h => decode_of_and_F00F (f := 0x8#4) (n := 0x0#4) h rfl,
    fun s x nn => setResult_eq s x nn, fun s x y => setResult_eq s x (s.getV y)⟩

/-- Settles O20: the result is the model's byte sum, written without a flag. -/
theorem addImmediate : Obligations.AddImmediate :=
  ⟨fun _ h => decode_of_and_F000_XNN (f := 0x7#4) h rfl,
    fun s x nn => ⟨addByte (s.getV x) nn, addByte_toNat _ _, setResult_eq s x _⟩⟩

/-- Settles O21: each bit of the library's OR, AND and XOR of two words is that of the operands' bits. -/
theorem bitwiseRegister : Obligations.BitwiseRegister :=
  ⟨fun _ h => decode_of_and_F00F (f := 0x8#4) (n := 0x1#4) h rfl,
    fun _ h => decode_of_and_F00F (f := 0x8#4) (n := 0x2#4) h rfl,
    fun _ h => decode_of_and_F00F (f := 0x8#4) (n := 0x3#4) h rfl,
    fun s x y => ⟨s.getV x ||| s.getV y, fun _ _ => BitVec.getLsbD_or, setResult_eq s x _⟩,
    fun s x y => ⟨s.getV x &&& s.getV y, fun _ _ => BitVec.getLsbD_and, setResult_eq s x _⟩,
    fun s x y => ⟨s.getV x ^^^ s.getV y, fun _ _ => BitVec.getLsbD_xor, setResult_eq s x _⟩⟩

/-- Settles O22: the result is the model's byte sum, and the carry is that of the exact sum. -/
theorem addWithCarry : Obligations.AddWithCarry :=
  ⟨fun _ h => decode_of_and_F00F (f := 0x8#4) (n := 0x4#4) h rfl,
    fun s x y => ⟨addByte (s.getV x) (s.getV y), addByte_toNat _ _, setFlagged_eq s x _ (flagByte_carry _ _)⟩⟩

/-- Settles O23: SUB and SUBN are one byte difference with its operands in the two orders. -/
theorem subtractWithNoBorrow : Obligations.SubtractWithNoBorrow :=
  ⟨fun _ h => decode_of_and_F00F (f := 0x8#4) (n := 0x5#4) h rfl,
    fun _ h => decode_of_and_F00F (f := 0x8#4) (n := 0x7#4) h rfl,
    fun s x y => ⟨subByte (s.getV x) (s.getV y), subByte_toNat _ _, setFlagged_eq s x _ (flagByte_noBorrow _ _)⟩,
    fun s x y => ⟨subByte (s.getV y) (s.getV x), subByte_toNat _ _, setFlagged_eq s x _ (flagByte_noBorrow _ _)⟩⟩

/-- Settles O24: the source is the model's shift operand under either value of P_SHIFT_SOURCE. -/
theorem shiftByOne : Obligations.ShiftByOne := by
  refine ⟨fun _ h => decode_of_and_F00F (f := 0x8#4) (n := 0x6#4) h rfl,
    fun _ h => decode_of_and_F00F (f := 0x8#4) (n := 0xE#4) h rfl, fun s x y src hsrc => ?_⟩
  obtain rfl : src = shiftOperand s x y := hsrc.trans (shiftOperand_eq s x y).symm
  exact ⟨⟨_, shiftRight_toNat _, setFlagged_eq s x _ (flagByte_outRight _)⟩,
    ⟨_, shiftLeft_toNat _, setFlagged_eq s x _ (flagByte_outLeft _)⟩⟩

end Sys2Proof.Machine

namespace Sys2Proof.Machine

/-! SUPPORT. Index, random and draw (43_index_random_draw.md R170 to R175, with FX1E and FX29 of R203, R204): what I gets, the
masked draw, which pixels a DXYN toggles, and what a second equal drawing does to the first. -/

/-! ### The index register (R203, R204) -/

theorem add_zext16_toNat (w : Word) (b : Byte) : (w + zext16 b).toNat = (w.toNat + b.toNat) % 65536 := by
  rw [BitVec.toNat_add, zext16_toNat]

/-- The glyph address is at most 5 * 255, so the 16 bits hold it exactly (R204). -/
theorem glyphAddress_toNat (b : Byte) : (BitVec.ofNat 16 (5 * b.toNat)).toNat = 5 * b.toNat := by
  have hb : b.toNat < 256 := b.isLt
  rw [BitVec.toNat_ofNat, Nat.mod_eq_of_lt (by omega)]

/-- Settles O25: each of the three writes I alone; ANNN's and FX29's values fit 16 bits, FX1E's sum is reduced. -/
theorem indexWrites : Obligations.IndexWrites :=
  ⟨fun _ h => decode_of_and_F000 (f := 0xA#4) h rfl,
    fun _ h => decode_of_and_F0FF (f := 0xF#4) (nn := 0x1E#8) h rfl,
    fun _ h => decode_of_and_F0FF (f := 0xF#4) (nn := 0x29#8) h rfl,
    fun _ nnn => ⟨addrOperand nnn, addrOperand_toNat nnn, rfl⟩,
    fun s x => ⟨s.i + zext16 (s.getV x), add_zext16_toNat _ _, rfl⟩,
    fun s x => ⟨BitVec.ofNat 16 (5 * (s.getV x).toNat), glyphAddress_toNat _, rfl⟩⟩

/-! ### The random byte (R171, R335) -/

theorem rndWith_eq (rand : Byte) (x : Reg) (nn : Byte) (s : State) :
    rndWith rand x nn s = .next { s with v := s.v.set x.val (rand &&& nn), pc := s.pc + 2#16, draws := s.draws + 1 } :=
  rfl

/-- A masked byte has no bit outside its mask. -/
theorem and_and_not_eq_zero (rand nn : Byte) : rand &&& nn &&& ~~~nn = 0#8 := by
  rw [BitVec.and_assoc, BitVec.and_not_self]
  exact BitVec.and_zero

theorem execWith_of_ne_rnd (rand : Byte) (s : State) {i : Instr} (h : ∀ x nn, i ≠ .rnd x nn) :
    execWith rand i s = exec i s := by
  cases i
  case rnd x nn => exact absurd rfl (h x nn)
  all_goals rfl

/-- Settles O26: CXNN with a byte and CXNN with the free draw are one masked write, and only CXNN's arm takes the byte. -/
theorem randomMasked : Obligations.RandomMasked :=
  ⟨fun _ h => decode_of_and_F000_XNN (f := 0xC#4) h rfl,
    fun rand s x nn => ⟨rand &&& nn, fun _ _ => BitVec.getLsbD_and, rndWith_eq rand x nn s⟩,
    fun s x nn => ⟨Config.freeDraw s.draws &&& nn, and_and_not_eq_zero _ nn, rndWith_eq _ x nn s⟩,
    fun _ _ _ => rfl,
    fun rand s _ => execWith_of_ne_rnd rand s⟩

/-! ### What DXYN answers (R172) -/

/-- An opcode of a family of format F_XYN decodes to that family's instruction with the opcode's X, Y and N. -/
theorem decode_of_and_F000_XYN {op : Word} {f : BitVec 4} {i : Instr} (h : op &&& 0xF000#16 = encodeNNN f 0#12)
    (henc : encode i = encodeXYN f (opX op) (opY op) (opN op)) : decode op = some i :=
  decode_eq_some_iff.mpr (henc.trans (encodeXYN_of_opFamily ((and_F000_iff op f).mp h)))

/-- The rows DXYN reads cover a pixel exactly when the sprite does: row r of them is the byte at I + r. -/
theorem rowsCover_iff {s : State} {x y : Reg} {n : BitVec 4} {px py : Nat} :
    (∃ r row, (s.bytesAt s.i.toNat n.toNat)[r]? = some row ∧ ∃ k < 8, spriteBit row k = true ∧
      px = ((s.getV x).toNat % 64 + k) % 64 ∧ py = ((s.getV y).toNat % 32 + r) % 32) ↔ SpriteCovers s x y n px py := by
  constructor
  · rintro ⟨r, row, hrow, k, hk, hbit, hpx, hpy⟩
    have hr : r < n.toNat := by simpa using (List.getElem?_eq_some_iff.mp hrow).1
    rw [s.getElem?_bytesAt hr] at hrow
    cases hrow
    exact ⟨r, k, hr, hk, hbit, hpx, hpy⟩
  · rintro ⟨r, k, hr, hk, hbit, hpx, hpy⟩
    exact ⟨r, _, s.getElem?_bytesAt hr, k, hk, hbit, hpx, hpy⟩

theorem execDrw_fault {s : State} (x y : Reg) {n : BitVec 4} (h : ¬ InRange s.i.toNat n.toNat) :
    execDrw x y n s = .fault (.addressOutOfRange (max s.i.toNat 0x1000)) := by
  rw [execDrw, indexAddress, memRead_fault h, attempt_error]

/-- In range, DXYN shows a canvas on which exactly the covered pixels are toggled, with that canvas's flag in VF. -/
theorem execDrw_of_inRange {s : State} (x y : Reg) {n : BitVec 4} (h : InRange s.i.toNat n.toNat) :
    ∃ c : Canvas, Toggles (SpriteCovers s x y n) (s.disp, false) c ∧
      execDrw x y n s = .next ((s.showGrid c.1).setV regF (flagByte c.2)).advance := by
  have hlen : (s.bytesAt s.i.toNat n.toNat).length ≤ 32 := by
    have hn : n.toNat < 16 := n.isLt
    rw [State.length_bytesAt]
    omega
  refine ⟨_, (toggles_drawSprite _ _ _ hlen s.disp).congr fun px py => rowsCover_iff, ?_⟩
  rw [execDrw, indexAddress, memRead_ok h, attempt_ok]

/-! ### The flag of a drawing (R175) -/

section
variable {H : Nat → Nat → Prop} {d : Grid} {c c' : Canvas}

theorem Toggles.flagByte_of_collision (h : Toggles H (d, false) c)
    (hlit : ∃ px < 64, ∃ py < 32, H px py ∧ getPixel d px py = true) : flagByte c.2 = 1#8 :=
  congrArg flagByte (h.flag.mpr (Or.inr hlit))

theorem Toggles.flagByte_of_no_collision (h : Toggles H (d, false) c)
    (hlit : ¬ ∃ px < 64, ∃ py < 32, H px py ∧ getPixel d px py = true) : flagByte c.2 = 0#8 := by
  have hclear : c.2 = false := Bool.eq_false_iff.mpr fun hc => (h.flag.mp hc).elim Bool.false_ne_true hlit
  exact congrArg flagByte hclear

/-! ### Drawing the same pixels twice -/

/-- A pixel toggled twice, or never, is as it was. -/
theorem Toggles.twice_restores (h : Toggles H (d, false) c) (h' : Toggles H (c.1, false) c') : c'.1 = d := by
  refine grid_ext fun px hx py hy => ?_
  by_cases hH : H px py
  · rw [h'.hit px hx py hy hH, h.hit px hx py hy hH, Bool.not_not]
  · rw [h'.miss px hx py hy hH, h.miss px hx py hy hH]

/-- The pixels lit after a drawing, among those it toggled, are those that were unlit before. -/
theorem Toggles.lit_after_iff (h : Toggles H (d, false) c) :
    (∃ px < 64, ∃ py < 32, H px py ∧ getPixel c.1 px py = true) ↔
      ∃ px < 64, ∃ py < 32, H px py ∧ getPixel d px py = false := by
  have hpixel {px py : Nat} (hx : px < 64) (hy : py < 32) (hH : H px py) :
      getPixel c.1 px py = true ↔ getPixel d px py = false := by
    rw [h.hit px hx py hy hH, Bool.not_eq_true']
  constructor
  · rintro ⟨px, hx, py, hy, hH, hlit⟩
    exact ⟨px, hx, py, hy, hH, (hpixel hx hy hH).mp hlit⟩
  · rintro ⟨px, hx, py, hy, hH, hunlit⟩
    exact ⟨px, hx, py, hy, hH, (hpixel hx hy hH).mpr hunlit⟩

end

/-- Which pixels a sprite covers depends on RAM, the font, I and the start point only. -/
theorem spriteCovers_congr {s t : State} {x y : Reg} (n : BitVec 4) (hram : t.ram = s.ram) (hparams : t.params = s.params)
    (hi : t.i = s.i) (hx : (t.getV x).toNat % 64 = (s.getV x).toNat % 64)
    (hy : (t.getV y).toNat % 32 = (s.getV y).toNat % 32) (px py : Nat) :
    SpriteCovers t x y n px py ↔ SpriteCovers s x y n px py := by
  simp only [SpriteCovers, spriteHas, hi, hx, hy, State.byteAt_congr hram hparams]

/-! ### The statements about DXYN -/

/-- Settles O27: out of range DXYN faults; in range the canvas it shows toggles exactly the covered pixels. -/
theorem drawSpritePixels : Obligations.DrawSpritePixels := by
  refine ⟨fun _ h => decode_of_and_F000_XYN (f := 0xD#4) h rfl, fun s x y n hpos hout => ?_, fun s x y n hin => ?_⟩
  · have hrange : ¬ InRange s.i.toNat n.toNat := by
      unfold InRange
      omega
    exact execDrw_fault x y hrange
  · obtain ⟨c, htoggles, hexec⟩ := execDrw_of_inRange x y hin
    exact ⟨c.1, flagByte c.2, hexec, htoggles.hit, htoggles.miss, htoggles.flagByte_of_collision,
      htoggles.flagByte_of_no_collision⟩

/-- Settles O28: from the same start point the second DXYN toggles the same pixels, and those lit by then are those unlit at
first. -/
theorem drawTwiceRestores : Obligations.DrawTwiceRestores := by
  intro s t x y n hfirst hx hy
  have hrange : InRange s.i.toNat n.toNat := (execDrw_next hfirst).1
  obtain ⟨c, htoggles, hexec⟩ := execDrw_of_inRange x y hrange
  obtain rfl := Host.Outcome.next.inj (hexec.symm.trans hfirst)
  obtain ⟨c', hagain, hsecond⟩ :=
    execDrw_of_inRange (s := ((s.showGrid c.1).setV regF (flagByte c.2)).advance) x y hrange
  have hsame : Toggles (SpriteCovers s x y n) (c.1, false) c' :=
    hagain.congr (spriteCovers_congr n rfl rfl rfl hx hy)
  refine ⟨_, hsecond, htoggles.twice_restores hsame, fun hunlit => ?_, fun hlit => ?_⟩
  · exact (State.getV_setV_same _ regF _).trans (hsame.flagByte_of_collision (htoggles.lit_after_iff.mpr hunlit))
  · exact (State.getV_setV_same _ regF _).trans
      (hsame.flagByte_of_no_collision (mt htoggles.lit_after_iff.mp hlit))

end Sys2Proof.Machine

namespace Sys2Proof.Machine

/-! SUPPORT. Timers and memory blocks (44_timers_misc.md R200 to R207, but for FX1E and FX29): what FX33, FX55 and FX65 answer
when their range at I lies in RAM and when it does not, the bytes the stores put there, and the registers a load fills. -/

/-- Settles O29: each of the three writes one field and completes; the opcodes are of format F_X. -/
theorem timerMoves : Obligations.TimerMoves :=
  ⟨fun _ h => decode_of_and_F0FF (f := 0xF#4) (nn := 0x07#8) h rfl,
    fun _ h => decode_of_and_F0FF (f := 0xF#4) (nn := 0x15#8) h rfl,
    fun _ h => decode_of_and_F0FF (f := 0xF#4) (nn := 0x18#8) h rfl,
    fun s x => setResult_eq s x s.dt, fun _ _ => rfl, fun _ _ => rfl⟩

/-! ### The range at I (R55) -/

/-- A range that is not empty lies in RAM exactly when its last address does. -/
theorem inRange_succ_iff {a n : Nat} : InRange a (n + 1) ↔ a + n ≤ 0xFFF := by
  unfold InRange
  omega

theorem not_inRange_succ_iff {a n : Nat} : ¬ InRange a (n + 1) ↔ 0xFFF < a + n := by
  rw [inRange_succ_iff, not_le]

/-! ### Bytes stored at I (R205, R206) -/

theorem execLdBVx_fault {s : State} (x : Reg) (h : ¬ InRange s.i.toNat 3) :
    execLdBVx x s = .fault (.addressOutOfRange (max s.i.toNat 0x1000)) := by
  rw [execLdBVx, indexAddress, memWrite_fault h, attempt_error]

theorem execLdBVx_of_inRange {s : State} (x : Reg) (h : InRange s.i.toNat 3) :
    execLdBVx x s = .next (s.putBytes s.i.toNat (bcdDigits (s.getV x))).advance := by
  rw [execLdBVx, indexAddress, memWrite_ok h, attempt_ok]

theorem execLdMemVx_fault {s : State} {x : Reg} (h : ¬ InRange s.i.toNat (x.val + 1)) :
    execLdMemVx x s = .fault (.addressOutOfRange (max s.i.toNat 0x1000)) := by
  rw [← length_regBlock s x] at h
  rw [execLdMemVx, indexAddress, memWrite_fault h, attempt_error]

theorem execLdMemVx_of_inRange {s : State} {x : Reg} (h : InRange s.i.toNat (x.val + 1)) :
    execLdMemVx x s = .next (s.putBytes s.i.toNat (regBlock s x)).advance := by
  rw [← length_regBlock s x] at h
  rw [execLdMemVx, indexAddress, memWrite_ok h, attempt_ok]

/-- Storing bytes and completing changes RAM and PC only. -/
theorem State.putBytes_advance_eq (s : State) (a : Nat) (bytes : List Byte) :
    (s.putBytes a bytes).advance =
      { s with ram := (s.putBytes a bytes).advance.ram, pc := s.pc + 2#16 } := rfl

/-- Each digit is below 256, so the byte holds it exactly. -/
theorem bcdDigits_eq (b : Byte) : ∃ hundreds tens ones : Byte, bcdDigits b = [hundreds, tens, ones] ∧
    hundreds.toNat = b.toNat / 100 ∧ tens.toNat = b.toNat / 10 % 10 ∧ ones.toNat = b.toNat % 10 := by
  have hb : b.toNat < 256 := b.isLt
  refine ⟨_, _, _, rfl, ?_, ?_, ?_⟩ <;> rw [BitVec.toNat_ofNat, Nat.mod_eq_of_lt (by omega)]

/-- Settles O30: in range FX33 puts the three digits at I, and bytes put read back. -/
theorem storeDecimalDigits : Obligations.StoreDecimalDigits := by
  refine ⟨fun _ h => decode_of_and_F0FF (f := 0xF#4) (nn := 0x33#8) h rfl,
    fun s x h => execLdBVx_fault x (not_inRange_succ_iff.mpr h), fun s x h => ?_⟩
  obtain ⟨hundreds, tens, ones, hdigits, hhundreds, htens, hones⟩ := bcdDigits_eq (s.getV x)
  have hread {k : Nat} {b : Byte} (hk : [hundreds, tens, ones][k]? = some b) :
      (s.putBytes s.i.toNat (bcdDigits (s.getV x))).advance.byteAt (s.i.toNat + k) = b :=
    s.byteAt_putBytes_inside (hdigits ▸ hk)
  refine ⟨_, execLdBVx_of_inRange x (inRange_succ_iff.mpr h), State.putBytes_advance_eq _ _ _, ?_, ?_, ?_,
    fun a ha => s.byteAt_putBytes_outside (ha.imp_right Nat.succ_le_of_lt)⟩
  · exact (congrArg BitVec.toNat (hread (k := 0) rfl)).trans hhundreds
  · exact (congrArg BitVec.toNat (hread (k := 1) rfl)).trans htens
  · exact (congrArg BitVec.toNat (hread (k := 2) rfl)).trans hones

/-- Settles O31: in range FX55 puts the block V0..VX at I, and byte k of the block is V[k]. -/
theorem storeRegisterBlock : Obligations.StoreRegisterBlock := by
  refine ⟨fun _ h => decode_of_and_F0FF (f := 0xF#4) (nn := 0x55#8) h rfl,
    fun _ _ h => execLdMemVx_fault (not_inRange_succ_iff.mpr h), fun s x h => ?_⟩
  refine ⟨_, execLdMemVx_of_inRange (inRange_succ_iff.mpr h), State.putBytes_advance_eq _ _ _,
    fun k hk => s.byteAt_putBytes_inside (getElem?_regBlock s hk), fun a ha => s.byteAt_putBytes_outside ?_⟩
  rw [length_regBlock]
  exact ha.imp_right Nat.succ_le_of_lt

/-! ### Registers loaded from I (R207) -/

theorem execLdVxMem_fault {s : State} {x : Reg} (h : ¬ InRange s.i.toNat (x.val + 1)) :
    execLdVxMem x s = .fault (.addressOutOfRange (max s.i.toNat 0x1000)) := by
  rw [execLdVxMem, indexAddress, memRead_fault h, attempt_error]

theorem execLdVxMem_of_inRange {s : State} {x : Reg} (h : InRange s.i.toNat (x.val + 1)) :
    execLdVxMem x s = .next (s.setRegs (fillRegs s.v 0 (s.bytesAt s.i.toNat (x.val + 1)))).advance := by
  rw [execLdVxMem, indexAddress, memRead_ok h, attempt_ok]

/-- A register within the filled block holds the byte read for it. -/
theorem getElem_fillRegs_bytesAt_inside (s : State) (r : Vector Byte 16) (a : Nat) {n : Nat} {k : Reg}
    (h : k.val < n) : (fillRegs r 0 (s.bytesAt a n))[k.val] = s.byteAt (a + k.val) := by
  rw [getElem_fillRegs, dif_pos (by rw [State.length_bytesAt]; omega), List.getElem_eq_iff]
  exact s.getElem?_bytesAt h

/-- A register above the filled block is as it was. -/
theorem getElem_fillRegs_bytesAt_outside (s : State) (r : Vector Byte 16) (a : Nat) {n : Nat} {k : Reg}
    (h : n ≤ k.val) : (fillRegs r 0 (s.bytesAt a n))[k.val] = r[k.val] := by
  rw [getElem_fillRegs, dif_neg (by rw [State.length_bytesAt]; omega)]

/-- Settles O32: in range FX65 fills V0..VX with the X + 1 bytes at I. -/
theorem loadRegisterBlock : Obligations.LoadRegisterBlock :=
  ⟨fun _ h => decode_of_and_F0FF (f := 0xF#4) (nn := 0x65#8) h rfl,
    fun _ _ h => execLdVxMem_fault (not_inRange_succ_iff.mpr h),
    fun s _ h => ⟨_, execLdVxMem_of_inRange (inRange_succ_iff.mpr h), rfl,
      fun _ hk => getElem_fillRegs_bytesAt_inside s s.v _ (Nat.lt_succ_of_le hk),
      fun _ hk => getElem_fillRegs_bytesAt_outside s s.v _ (Nat.succ_le_of_lt hk)⟩⟩

end Sys2Proof.Machine

namespace Sys2Proof.Machine

/-! SUPPORT. Blocking key wait (45_key_wait.md R230): which key FX0A stores. -/

/-- FX0A with key k down and every lower key up stores k and completes (R230). -/
theorem execLdVxK_of_lowest_key {s : State} (x : Reg) {k : Fin 16} (hk : s.keys[k.val] = true)
    (hlow : ∀ j : Fin 16, j < k → s.keys[j.val] = false) :
    execLdVxK x s = .next (s.setV x (BitVec.ofNat 8 k.val)).advance := by
  simp only [execLdVxK, lowestKey_some hk hlow]

/-- Settles O34: the opcodes are of format F_X, no key is found when all are up, and the key found is the lowest one down. -/
theorem keyWaitTakesLowest : Obligations.KeyWaitTakesLowest :=
  ⟨fun _ h => decode_of_and_F0FF (f := 0xF#4) (nn := 0x0A#8) h rfl,
    fun _ x hup => execLdVxK_of_keys_up x hup,
    fun _ x _ hk hlow => execLdVxK_of_lowest_key x hk hlow⟩

end Sys2Proof.Machine

namespace Sys2Proof.Machine

/-! SUPPORT. Host commands (60_exceptions.md R320 to R342): how a timer counts down, what EXPORT's record holds and that it is
well formed, and the order in which the commands of one cycle are performed. -/

/-! ### EXPORT's record (R406) -/

theorem toNat_le_of_mem_map {w : Nat} {l : List (BitVec w)} : ∀ x ∈ l.map BitVec.toNat, x ≤ 2 ^ w - 1 := by
  intro x hx
  obtain ⟨b, -, rfl⟩ := List.mem_map.mp hx
  exact Nat.le_sub_one_of_lt b.isLt

theorem getElem?_map_toNat_toList {w n k : Nat} (v : Vector (BitVec w) n) (hk : k < n) :
    (v.toList.map BitVec.toNat)[k]? = some v[k].toNat := by
  rw [List.getElem?_map, List.getElem?_eq_getElem (by rwa [Vector.length_toList]), Vector.getElem_toList, Option.map_some]

/-- What EXPORT returns passes every check of IMPORT (R406, R408). -/
theorem recordWellFormed_exportRecord (s : State) : RecordWellFormed (exportRecord s) := by
  refine ⟨⟨_, rfl, ?_, toNat_le_of_mem_map⟩, ⟨_, rfl, ?_, toNat_le_of_mem_map⟩,
    ⟨_, rfl, Nat.le_sub_one_of_lt s.i.isLt⟩, ⟨_, rfl, Nat.le_sub_one_of_lt s.pc.isLt⟩,
    ⟨_, rfl, ?_, toNat_le_of_mem_map⟩, ⟨_, rfl, Fin.is_le s.sp⟩, ⟨_, rfl, Nat.le_sub_one_of_lt s.dt.isLt⟩,
    ⟨_, rfl, Nat.le_sub_one_of_lt s.st.isLt⟩, ⟨_, rfl, ?_, fun col hcol => ?_⟩, rfl⟩
  · rw [List.length_map, State.length_bytesAt, ramSize]
  · rw [List.length_map, Vector.length_toList]
  · rw [List.length_map, Vector.length_toList]
  · rw [List.length_map, Vector.length_toList]
  · obtain ⟨column, -, rfl⟩ := List.mem_map.mp hcol
    exact column.length_toList

/-- Number a of the record's RAM is the byte at address a. -/
theorem getElem?_exportRecord_ram {s : State} {l : List Nat} (h : (exportRecord s).ram = some l) {a : Nat}
    (ha : a < 4096) : l[a]? = some (s.byteAt a).toNat := by
  obtain rfl := Option.some.inj h
  rw [List.getElem?_map, s.getElem?_bytesAt (n := ramSize) ha, Option.map_some, Nat.zero_add]

/-- Boolean py of column px of the record's display is the pixel at (px, py). -/
theorem getElem?_exportRecord_disp {s : State} {g : List (List Bool)} (h : (exportRecord s).disp = some g) {px py : Nat}
    (hx : px < 64) (hy : py < 32) : (g[px]?.bind fun col => col[py]?) = some (getPixel s.disp px py) := by
  obtain rfl := Option.some.inj h
  simp [getPixel, Nat.mod_eq_of_lt, hx, hy]

/-- Settles O59: both answers are by definition, the record is well formed, and each of its lists reads back the state's
values. -/
theorem hostReadsState : Obligations.HostReadsState := by
  refine fun s => ⟨rfl, exportRecord s, rfl, recordWellFormed_exportRecord s, rfl, rfl, rfl, rfl, rfl,
    fun _ h _ ha => getElem?_exportRecord_ram h ha, fun _ h k => ?_, fun _ h k => ?_,
    fun _ h _ hx _ hy => getElem?_exportRecord_disp h hx hy⟩
  · exact Option.some.inj h ▸ getElem?_map_toNat_toList s.v k.isLt
  · exact Option.some.inj h ▸ getElem?_map_toNat_toList s.stack k.isLt

/-! ### Commands of one cycle (R342) -/

theorem cycleRank_lt (c : Command) : cycleRank c < 6 := by
  cases c <;> simp [cycleRank]

theorem filter_filter_cycleRank (batch : List Command) (r rank : Nat) :
    ((batch.filter fun c => cycleRank c == r).filter fun c => cycleRank c == rank) =
      if r = rank then batch.filter fun c => cycleRank c == rank else [] := by
  split
  next heq => rw [heq, List.filter_filter]; simp only [Bool.and_self]
  next hne =>
    refine List.filter_eq_nil_iff.mpr fun c hc hrank => hne ?_
    exact (eq_of_beq (List.mem_filter.mp hc).2).symm.trans (eq_of_beq hrank)

/-- The arbitrated order has the commands of each rank in delivery order (R342). -/
theorem filter_arbitrate (batch : List Command) (rank : Nat) :
    ((arbitrate batch).filter fun c => cycleRank c == rank) = batch.filter fun c => cycleRank c == rank := by
  simp only [arbitrate, List.filter_flatMap, filter_filter_cycleRank]
  by_cases h : rank < 6
  · interval_cases rank <;> simp
  · have hnone : (batch.filter fun c => cycleRank c == rank) = [] :=
      List.filter_eq_nil_iff.mpr fun c _ hc => h (eq_of_beq hc ▸ cycleRank_lt c)
    simp only [hnone, ite_self, List.flatMap_eq_nil_iff, implies_true]

/-- A command occurs in a list as often as among the commands of its rank, so none is lost or doubled (R342). -/
theorem arbitrate_perm (batch : List Command) : (arbitrate batch).Perm batch := by
  refine List.perm_iff_count.mpr fun c => ?_
  have hcount (l : List Command) : (l.filter fun d => cycleRank d == cycleRank c).count c = l.count c :=
    List.count_filter (beq_self_eq_true _)
  rw [← hcount (arbitrate batch), filter_arbitrate, hcount]

theorem arbitrate_pairwise (batch : List Command) :
    (arbitrate batch).Pairwise fun c d => cycleRank c ≤ cycleRank d := by
  have hrank {r : Nat} {c : Command} (hc : c ∈ batch.filter fun c => cycleRank c == r) : cycleRank c = r :=
    eq_of_beq (List.mem_filter.mp hc).2
  have hranks : [0, 1, 2, 3, 4, 5].Pairwise (· ≤ ·) := by decide
  refine List.pairwise_flatMap.mpr ⟨fun r _ => ?_, hranks.imp fun hle c hc d hd => ?_⟩
  · exact List.pairwise_of_forall_mem_list fun c hc d hd => ((hrank hc).trans (hrank hd).symm).le
  · rwa [hrank hc, hrank hd]

/-- Settles O60: the order is `arbitrate batch`, and the ranks are numbers that rise in R342's order. -/
theorem sameCycleOrder : Obligations.SameCycleOrder :=
  ⟨fun batch => ⟨arbitrate batch, arbitrate_perm batch, arbitrate_pairwise batch, filter_arbitrate batch, fun _ => rfl⟩,
    fun _ _ _ _ _ => by simp [cycleRank]⟩

/-! ### Key events and TICK (R320, R325, R326) -/

/-- Settles O49: an index up to 15 sets that key's level, any other sets none. -/
theorem keyEventsSetLevels : Obligations.KeyEventsSetLevels :=
  ⟨fun s k => ⟨congrArg (·, Response.ok) (s.setKey_fin k true), congrArg (·, Response.ok) (s.setKey_fin k false)⟩,
    fun s _ hk => ⟨congrArg (·, Response.ok) (s.setKey_of_gt hk true),
      congrArg (·, Response.ok) (s.setKey_of_gt hk false)⟩⟩

theorem countDown_toNat (b : Byte) : (countDown b).toNat = if 0 < b.toNat then b.toNat - 1 else 0 := by
  have hb : b.toNat < 256 := b.isLt
  unfold countDown
  split
  · rw [BitVec.toNat_ofNat, Nat.mod_eq_of_lt (by omega)]
  · rfl

/-- Settles O48: TICK writes DT and ST, each counted down with a floor of 0. -/
theorem tickCountsDown : Obligations.TickCountsDown :=
  fun s => ⟨_, _, countDown_toNat s.dt, countDown_toNat s.st, rfl⟩

end Sys2Proof.Machine

namespace Sys2Proof.Machine

/-! SUPPORT. Reset, LOAD and IMPORT (70_reset_and_hazards.md R400 to R410): when LOAD accepts a program and what RAM reads after
it, what a step answers on an opcode that decodes to nothing, and that IMPORT's checks accept exactly the values in range. -/

/-! ### LOAD (R402, R403, R405) -/

theorem loadProgram_of_too_long {bytes : List Byte} (s : State) (h : 3584 < bytes.length) :
    loadProgram bytes s = .fault (.loadError bytes.length) :=
  if_pos h

theorem loadProgram_of_fits {bytes : List Byte} (s : State) (h : bytes.length ≤ 3584) :
    loadProgram bytes s = .next { State.powerOn s.params with
      ram := Memory.ofBytes s.params.font programBase bytes, draws := s.draws } :=
  if_neg (Nat.not_lt.mpr h)

theorem resetByte_of_lt (font : Font) {a : Nat} (h : a < 80) : resetByte font a = font[a] := dif_pos h

theorem resetByte_of_ge (font : Font) {a : Nat} (h : 80 ≤ a) : resetByte font a = 0#8 := dif_neg (Nat.not_lt.mpr h)

/-- Settles O51: a program that fits replaces the state by the power-on state with the program's bytes at 0x200; outside them
RAM reads its reset contents. -/
theorem loadReplacesState : Obligations.LoadReplacesState := by
  refine ⟨fun bytes s h => congrArg (settle s) (loadProgram_of_too_long s h), fun bytes s h =>
    ⟨_, congrArg (settle s) (loadProgram_of_fits s h), fun a ha => ?font, fun j b hj => ?program, fun a ha hout => ?zeros,
      fun r => ?registers, rfl, rfl, fun k => ?stack, rfl, rfl, rfl, getPixel_clearGrid, fun k => ?keys, rfl, rfl, rfl⟩⟩
  case font =>
    have hout : a < programBase := Nat.lt_trans ha (by decide)
    exact (Memory.read_ofBytes_outside (.inl hout)).trans (resetByte_of_lt _ ha)
  case program => exact Memory.read_ofBytes_inside hj
  case zeros => exact (Memory.read_ofBytes_outside hout).trans (resetByte_of_ge _ ha)
  case registers => exact Vector.getElem_replicate r.isLt
  case stack => exact Vector.getElem_replicate k.isLt
  case keys => exact Vector.getElem_replicate k.isLt

/-! ### Power-on (R400, R410) -/

/-- A cycle whose opcode decodes to nothing faults, whatever instructions do (R80, R306). -/
theorem cycleWith_of_decode_none {run : Instr → State → StepResult} {s : State} {op : Word} (hf : fetch s = .ok op)
    (hd : decode op = none) : cycleWith run s = .fault (.invalidOpcode op) := by
  simp only [cycleWith, hf, attempt_ok, hd, raise]

/-- At power-on PC is 0x200, where RAM holds zeros (R41, R410). -/
theorem fetch_powerOn (p : Params) : fetch (State.powerOn p) = .ok 0#16 := by
  have hpc : (State.powerOn p).pc.toNat = 0x200 := rfl
  have hzero : ∀ a, 80 ≤ a → (State.powerOn p).byteAt a = 0#8 := fun _ => resetByte_of_ge p.font
  refine fetch_eq_ok.mpr ⟨by omega, ?_⟩
  rw [hzero _ (by omega), hzero _ (by omega)]
  rfl

theorem cycleWith_powerOn (run : Instr → State → StepResult) (p : Params) :
    cycleWith run (State.powerOn p) = .fault (.invalidOpcode 0#16) :=
  cycleWith_of_decode_none (fetch_powerOn p) rfl

/-- Settles O52: a program of no bytes fits and leaves RAM at its reset contents; the opcode at power-on is 0x0000. -/
theorem powerOnIsEmptyLoad : Obligations.PowerOnIsEmptyLoad :=
  ⟨fun s => congrArg (settle s) (loadProgram_of_fits (bytes := []) s (Nat.zero_le _)), cycleWith_powerOn exec,
    fun p rand => congrArg (settle (State.powerOn p)) (cycleWith_powerOn (execWith rand) p), rfl⟩

/-! ### IMPORT's checks (R408) -/

/-- A field passes its check when it is present and the check accepts its value. -/
theorem exists_bind_iff {α β : Type} {field : Option α} {check : α → Option β} {P : α → Prop}
    (h : ∀ a, (check a).isSome ↔ P a) : (∃ b, field.bind check = some b) ↔ ∃ a, field = some a ∧ P a := by
  cases field with
  | none => simp
  | some a => simp [← Option.isSome_iff_exists, h]

theorem checkedWord_isSome_iff {w : Nat} (x : Nat) : (checkedWord w x).isSome ↔ x ≤ 2 ^ w - 1 :=
  Option.isSome_ite.trans (Nat.lt_iff_le_pred (Nat.two_pow_pos w))

theorem checkedVector_isSome_iff {w n : Nat} (xs : List Nat) :
    (checkedVector w n xs).isSome ↔ xs.length = n ∧ ∀ x ∈ xs, x ≤ 2 ^ w - 1 := by
  simp only [← Nat.lt_iff_le_pred (Nat.two_pow_pos _)]
  exact Option.isSome_dite

theorem checkedRam_isSome_iff {font : Font} (xs : List Nat) :
    (checkedRam font xs).isSome ↔ xs.length = 4096 ∧ ∀ x ∈ xs, x ≤ 2 ^ 8 - 1 := by
  simp only [← Nat.lt_iff_le_pred (Nat.two_pow_pos _)]
  exact Option.isSome_ite

theorem checkedDepth_isSome_iff (x : Nat) : (checkedDepth x).isSome ↔ x ≤ 16 :=
  Option.isSome_dite.trans Nat.lt_succ_iff

theorem checkedGrid_isSome_iff (cols : List (List Bool)) :
    (checkedGrid cols).isSome ↔ cols.length = 64 ∧ ∀ col ∈ cols, col.length = 32 :=
  Option.isSome_dite

/-- A record is well formed exactly when IMPORT's check accepts each of its nine fields and it holds no other. -/
theorem recordWellFormed_iff {r : StateRecord} (font : Font) :
    RecordWellFormed r ↔
      (∃ ram, r.ram.bind (checkedRam font) = some ram) ∧ (∃ v, r.v.bind (checkedVector 8 16) = some v) ∧
      (∃ i, r.i.bind (checkedWord 16) = some i) ∧ (∃ pc, r.pc.bind (checkedWord 16) = some pc) ∧
      (∃ stack, r.stack.bind (checkedVector 16 16) = some stack) ∧ (∃ sp, r.sp.bind checkedDepth = some sp) ∧
      (∃ dt, r.dt.bind (checkedWord 8) = some dt) ∧ (∃ st, r.st.bind (checkedWord 8) = some st) ∧
      (∃ disp, r.disp.bind checkedGrid = some disp) ∧ r.extraFields = 0 := by
  simp only [exists_bind_iff checkedRam_isSome_iff, exists_bind_iff checkedVector_isSome_iff,
    exists_bind_iff checkedWord_isSome_iff, exists_bind_iff checkedDepth_isSome_iff,
    exists_bind_iff checkedGrid_isSome_iff]
  rfl

/-- The well-formed records are those that give a state (R408). -/
theorem exists_importedState_iff {r : StateRecord} {s : State} :
    (∃ t, importedState r s = some t) ↔ RecordWellFormed r := by
  rw [recordWellFormed_iff s.params.font]
  constructor
  · rintro ⟨t, h⟩
    obtain ⟨ram, v, i, pc, stack, sp, dt, st, disp, hram, hv, hi, hpc, hstack, hsp, hdt, hst, hdisp, hextra, -⟩ :=
      importedState_some h
    exact ⟨⟨ram, hram⟩, ⟨v, hv⟩, ⟨i, hi⟩, ⟨pc, hpc⟩, ⟨stack, hstack⟩, ⟨sp, hsp⟩, ⟨dt, hdt⟩, ⟨st, hst⟩, ⟨disp, hdisp⟩, hextra⟩
  · rintro ⟨⟨_, hram⟩, ⟨_, hv⟩, ⟨_, hi⟩, ⟨_, hpc⟩, ⟨_, hstack⟩, ⟨_, hsp⟩, ⟨_, hdt⟩, ⟨_, hst⟩, ⟨_, hdisp⟩, hextra⟩
    exact ⟨_, importedState_of hram hv hi hpc hstack hsp hdt hst hdisp hextra⟩

theorem importState_of_none {r : StateRecord} {s : State} (h : importedState r s = none) :
    importState r s = .fault .stateImportError := by
  simp only [importState, h, raise]

/-- Settles O53: a well-formed record gives a state, which IMPORT commits; any other gives none. -/
theorem importChecksRecord : Obligations.ImportChecksRecord := by
  refine ⟨fun r s hr => ?_, fun r s hr => ?_⟩
  · obtain ⟨t, ht⟩ := exists_importedState_iff.mpr hr
    exact ⟨t, congrArg (settle s) (importState_of_some ht)⟩
  · have hnone : importedState r s = none :=
      Option.eq_none_iff_forall_ne_some.mpr fun t ht => hr (exists_importedState_iff.mp ⟨t, ht⟩)
    exact congrArg (settle s) (importState_of_none hnone)

end Sys2Proof.Machine

namespace Sys2Proof

/-! SUPPORT. The codec as the host sees it (30_encoding.md R70 to R78): bytes in and out, and which opcodes are invalid. -/

/-- Settles O7: the decoder reads back every instruction, from the word and so from its bytes. -/
theorem decodeEncodeAgree : Obligations.DecodeEncodeAgree := fun i _ =>
  ⟨decode_encode i, decodeBytes_opcodeBytes_some (decode_encode i)⟩

/-- Settles O8: decoding has `encode` as its inverse on the valid opcodes. -/
theorem encodeDecodeAgree : Obligations.EncodeDecodeAgree := fun _ _ => encode_of_decode

/-! ### The invalid opcodes (R78) -/

theorem decodeFamily8_eq_none_iff {op : Word} :
    decodeFamily8 op = none ↔ (opN op).toNat ∈ [0x8, 0x9, 0xA, 0xB, 0xC, 0xD, 0xF] := by
  have hn : (opN op).toNat < 16 := (opN op).isLt
  unfold decodeFamily8
  split
  case h_10 => simp only [List.mem_cons, List.not_mem_nil, true_iff]; grind
  all_goals simp_all

theorem decodeFamilyE_eq_none_iff {op : Word} : decodeFamilyE op = none ↔ (opNN op).toNat ∉ [0x9E, 0xA1] := by
  unfold decodeFamilyE
  split <;> simp_all

theorem decodeFamilyF_eq_none_iff {op : Word} :
    decodeFamilyF op = none ↔ (opNN op).toNat ∉ [0x07, 0x0A, 0x15, 0x18, 0x1E, 0x29, 0x33, 0x55, 0x65] := by
  unfold decodeFamilyF
  split <;> simp_all

/-- Settles O10: each row of R78's table is the failing part of one arm of the decoder; arm `h_(k + 1)` is family k. -/
theorem invalidOpcodesRefused : Obligations.InvalidOpcodesRefused := by
  intro op
  have hf : (opFamily op).toNat < 16 := (opFamily op).isLt
  have hword (w : Word) : op = w ↔ op.toNat = w.toNat := BitVec.toNat_inj.symm
  have hnibble : opN op = 0#4 ↔ (opN op).toNat = 0 := BitVec.toNat_inj.symm
  rw [← opFamily_toNat, ← opN_toNat, ← opNN_toNat]
  unfold decode
  split
  case h_1 h => simp [h, hword, ite_eq_iff]
  case h_6 h | h_10 h => simp [h, hnibble]
  case h_9 h => simp [h, decodeFamily8_eq_none_iff]
  case h_15 h => simp [h, decodeFamilyE_eq_none_iff]
  case h_16 h => simp [h, decodeFamilyF_eq_none_iff]
  case h_17 => grind
  case h_2 h | h_3 h | h_4 h | h_5 h | h_7 h | h_8 h | h_11 h | h_12 h | h_13 h | h_14 h => simp [h]

end Sys2Proof

namespace Sys2Proof.Machine

/-! SUPPORT. What a step and an instruction answer (30_encoding.md R80, 60_exceptions.md R301 to R306): which faults there are,
on what, and that every instruction completes where none of them is due. -/

/-! ### The step cycle (R80, R306) -/

/-- Settles O1: the bytes at PC are the opcode fetched, and the cycle runs what it decodes to. -/
theorem stepRunsDecoded : Obligations.StepRunsDecoded := by
  intro s i hpc hdec
  have hfetches : s.Fetches i := ⟨_, fetch_ok hpc, hdec⟩
  exact ⟨cycleWith_of_fetches hfetches, fun _ => cycleWith_of_fetches hfetches⟩

theorem cycleWith_of_fetch_fault {run : Instr → State → StepResult} {s : State} {f : Fault} (hf : fetch s = .error f) :
    cycleWith run s = .fault f := by
  rw [cycleWith, hf, attempt_error]

/-- Settles O3: the fetch faults past RAM; in range it gives the opcode, which the cycle refuses or runs. -/
theorem stepFaultOrder : Obligations.StepFaultOrder := by
  intro s op hop
  obtain rfl : op = opcodeOf (s.byteAt s.pc.toNat) (s.byteAt (s.pc.toNat + 1)) :=
    BitVec.eq_of_toNat_eq (hop.trans (opcodeOf_toNat _ _).symm)
  exact ⟨fun hout => cycleWith_of_fetch_fault (fetch_fault hout),
    fun hin hnone => cycleWith_of_decode_none (fetch_ok hin) hnone,
    fun hin i hi => (stepRunsDecoded s i hin hi).1⟩

/-! ### The faults of an instruction (R302) -/

/-- Instruction `i` faults `f` in `s`: CALL on a full stack, RET on an empty one, or the range at I passes RAM's end. -/
def InstrFaults (i : Instr) (s : State) (f : Fault) : Prop :=
  ((∃ nnn, i = .call nnn) ∧ s.sp.val = 16 ∧ f = .stackOverflow s.pc) ∨
  (i = .ret ∧ s.sp.val = 0 ∧ f = .stackUnderflow s.pc) ∨
  (¬ InRange s.i.toNat (accessCount i) ∧ f = .addressOutOfRange (max s.i.toNat 0x1000))

/-- Where all that follows a check completes, the attempt faults exactly with the check's fault. -/
theorem attempt_eq_fault_iff {α : Type} {r : Except Fault α} {k : α → StepResult} {f : Fault}
    (hk : ∀ a, ∃ t, k a = .next t) : attempt r k = .fault f ↔ r = .error f := by
  cases r with
  | error e => simp
  | ok a =>
    obtain ⟨t, ht⟩ := hk a
    simp [ht]

theorem memRead_eq_error_iff {s : State} {a n : Nat} {f : Fault} :
    memRead s a n = .error f ↔ ¬ InRange a n ∧ f = .addressOutOfRange (max a 0x1000) := by
  by_cases h : InRange a n
  · simp [memRead_ok h, h]
  · simp [memRead_fault h, h, eq_comm]

theorem memWrite_eq_error_iff {s : State} {a : Nat} {bytes : List Byte} {f : Fault} :
    memWrite s a bytes = .error f ↔ ¬ InRange a bytes.length ∧ f = .addressOutOfRange (max a 0x1000) := by
  by_cases h : InRange a bytes.length
  · simp [memWrite_ok h, h]
  · simp [memWrite_fault h, h, eq_comm]

theorem pushStack_eq_error_iff {s : State} {w : Word} {f : Fault} :
    pushStack s w = .error f ↔ s.sp.val = 16 ∧ f = .stackOverflow s.pc := by
  rcases s.sp_room with h | ⟨k, h⟩
  · simp [pushStack_full w h, h, eq_comm]
  · simp [pushStack_ok w h, h, k.isLt.ne]

theorem popStack_eq_error_iff {s : State} {f : Fault} :
    popStack s = .error f ↔ s.sp.val = 0 ∧ f = .stackUnderflow s.pc := by
  rcases s.sp_live with h | ⟨k, h⟩
  · simp [popStack_empty h, h, eq_comm]
  · simp [popStack_ok h, h]

theorem inRange_zero (a : Nat) : InRange a 0 := Or.inl rfl

theorem exec_eq_fault_iff {i : Instr} {s : State} {f : Fault} : exec i s = .fault f ↔ InstrFaults i s f := by
  cases i
  case call nnn =>
    refine (attempt_eq_fault_iff fun _ => ⟨_, rfl⟩).trans ?_
    simp [pushStack_eq_error_iff, InstrFaults, accessCount, inRange_zero]
  case ret =>
    refine (attempt_eq_fault_iff fun _ => ⟨_, rfl⟩).trans ?_
    simp [popStack_eq_error_iff, InstrFaults, accessCount, inRange_zero]
  case drw x y n | ldVxMem x =>
    refine (attempt_eq_fault_iff fun _ => ⟨_, rfl⟩).trans ?_
    simp [memRead_eq_error_iff, InstrFaults, accessCount, indexAddress]
  case ldBVx x | ldMemVx x =>
    refine (attempt_eq_fault_iff fun _ => ⟨_, rfl⟩).trans ?_
    simp [memWrite_eq_error_iff, InstrFaults, accessCount, indexAddress, length_regBlock]
  case ldVxK x =>
    have hnext : ∃ t, exec (.ldVxK x) s = .next t := by
      simp only [exec, execLdVxK]
      split <;> exact ⟨_, rfl⟩
    obtain ⟨t, ht⟩ := hnext
    simp [ht, InstrFaults, accessCount, inRange_zero]
  all_goals
    refine iff_of_false (fun h => nomatch h) ?_
    simp [InstrFaults, accessCount, inRange_zero]

/-- Settles O4: the range at I lies outside RAM exactly when it is not empty and its last address is above 0xFFF. -/
theorem instructionFaults : Obligations.InstructionFaults := by
  intro i s f
  have hrange : ¬ InRange s.i.toNat (accessCount i) ↔ 0 < accessCount i ∧ 0xFFF < s.i.toNat + accessCount i - 1 := by
    unfold InRange
    omega
  rw [exec_eq_fault_iff, InstrFaults, hrange, and_assoc]

/-- Settles O5: an instruction that neither faults nor is refused completes. -/
theorem everyInstructionCompletes : Obligations.EveryInstructionCompletes := by
  intro i s hcall hret hrange
  cases h : exec i s with
  | next t => exact ⟨t, rfl⟩
  | refused r => exact absurd h (exec_ne_refused i s r)
  | fault f =>
    rcases exec_eq_fault_iff.mp h with ⟨⟨nnn, hi⟩, hsp, -⟩ | ⟨hi, hsp, -⟩ | ⟨hout, -⟩
    · exact absurd hsp (hcall nnn hi).ne
    · exact absurd hsp (hret hi).ne'
    · unfold InRange at hout
      omega

end Sys2Proof.Machine

namespace Sys2Proof.Machine

/-! SUPPORT. Sequences of host commands (60_exceptions.md R309, R320 to R345; 70_reset_and_hazards.md R411): what every command
keeps, sequences keep. Memory stays canonical; a fault and a self-jump stay where they are until a LOAD or an IMPORT, since the
other commands write host-side fields only. -/

/-- What each command of a list keeps, the whole list keeps. -/
theorem performAll_keeps {P : State → Prop} {cs : List Command} {s : State} (hs : P s)
    (hkeep : ∀ c ∈ cs, ∀ t, P t → P (perform c t).1) : P (performAll cs s).1 := by
  induction cs generalizing s with
  | nil => exact hs
  | cons c rest ih =>
    obtain ⟨hc, hrest⟩ := List.forall_mem_cons.mp hkeep
    exact ih (hc s hs) hrest

/-- A committed result has what the state before has, if each next state has it (R11). -/
theorem settle_keeps {P : State → Prop} {s : State} {r : StepResult} (hs : P s) (hnext : ∀ t, r = .next t → P t) :
    P (settle s r).1 := by
  cases r with
  | next t => exact hnext t rfl
  | fault f => exact hs
  | refused n => exact hs

/-! ### Memory stays canonical (R50) -/

/-- Settles O45: power-on memory lists no cell. -/
theorem canonicalMemoryAtReset : Obligations.CanonicalMemoryAtReset := ⟨rfl, fun _ => rfl⟩

/-- CXNN stores nothing, so `exec_memory` holds with any random byte. -/
theorem execWith_memory {rand : Byte} {i : Instr} {s t : State} (h : execWith rand i s = .next t) :
    (storeCount i = 0 ∧ t.ram = s.ram ∧ t.params = s.params) ∨
      ∃ bytes : List Byte, bytes.length = storeCount i ∧ InRange s.i.toNat bytes.length ∧
        t = (s.putBytes s.i.toNat bytes).advance := by
  cases i with
  | rnd x nn => cases h; exact Or.inl ⟨rfl, rfl, rfl⟩
  | _ => exact exec_memory h

theorem stepWith_keeps_inv {rand : Byte} {s t : State} (hs : s.Inv) (h : stepWith rand s = .next t) : t.Inv := by
  obtain ⟨op, i, -, -, hexec⟩ := cycleWith_next h
  rcases execWith_memory hexec with ⟨-, hram, hparams⟩ | ⟨bytes, -, hrange, rfl⟩
  · exact (State.Inv_congr hram hparams).mpr hs
  · exact State.Inv_putBytes hs hrange

/-- A step is the STEP whose random byte is the free draw (log 1). -/
theorem step_eq_stepWith (s : State) : step s = stepWith (Config.freeDraw s.draws) s := by
  have hexec (i : Instr) : exec i s = execWith (Config.freeDraw s.draws) i s := by cases i <;> rfl
  simp only [step, stepFree, stepWith, cycleWith, hexec]

/-- Settles O46: a step runs an instruction, which stores nothing or bytes within RAM. -/
theorem canonicalMemoryKeptByStep : Obligations.CanonicalMemoryKeptByStep := fun s _ hs h =>
  stepWith_keeps_inv hs ((step_eq_stepWith s).symm.trans h)

theorem loadProgram_keeps_inv {bytes : List Byte} {s t : State} (h : loadProgram bytes s = .next t) : t.Inv := by
  rcases Nat.lt_or_ge 3584 bytes.length with hlong | hfits
  · rw [loadProgram_of_too_long s hlong] at h
    cases h
  · rw [loadProgram_of_fits s hfits] at h
    cases h
    refine Memory.wf_ofBytes ?_
    simp only [programBase, ramSize]
    omega

theorem importState_keeps_inv {r : StateRecord} {s t : State} (h : importState r s = .next t) : t.Inv := by
  obtain ⟨ram, _, _, _, _, _, _, _, _, hram, -, -, -, -, -, -, -, -, -, rfl⟩ := importedState_some (importState_next h)
  obtain ⟨l, -, hl⟩ := Option.bind_eq_some_iff.mp hram
  exact checkedRam_wf hl

theorem perform_keeps_inv (c : Command) {s : State} (hs : s.Inv) : (perform c s).1.Inv := by
  cases c with
  | load bytes => exact settle_keeps hs fun _ => loadProgram_keeps_inv
  | importState r => exact settle_keeps hs fun _ => importState_keeps_inv
  | step rand => exact settle_keeps hs fun _ => stepWith_keeps_inv hs
  | tick | keyDown k | keyUp k | displayRead | exportState => exact hs

/-- Settles O47: each command keeps the invariant, so a list of them does. -/
theorem canonicalMemoryKeptByCommands : Obligations.CanonicalMemoryKeptByCommands := fun _ _ hs =>
  performAll_keeps hs fun c _ _ ht => perform_keeps_inv c ht

/-! ### The fields the host's events write -/

/-- `t` is `s` but for the fields that TICK, key events and DISPLAY_READ write: DT, ST, Keys and dispChanged. -/
def SameButHostFields (s t : State) : Prop :=
  t = { s with dt := t.dt, st := t.st, keys := t.keys, dispChanged := t.dispChanged }

theorem SameButHostFields.refl (s : State) : SameButHostFields s s := rfl

theorem SameButHostFields.trans {s t u : State} (hst : SameButHostFields s t) (htu : SameButHostFields t u) :
    SameButHostFields s u := by
  unfold SameButHostFields at hst htu
  rw [SameButHostFields, htu, hst]

theorem SameButHostFields.sameCode {s t : State} (h : SameButHostFields s t) : SameCode s t := by
  rw [h]
  exact ⟨rfl, rfl, rfl⟩

theorem SameButHostFields.fetch_eq {s t : State} (h : SameButHostFields s t) : fetch t = fetch s :=
  fetch_congr h.sameCode.pc h.sameCode.ram h.sameCode.params

/-- A command that is neither STEP, LOAD nor IMPORT writes host-side fields only. -/
theorem perform_sameButHostFields {c : Command} (s : State) (hstep : ∀ rand, c ≠ .step rand)
    (hc : replacesState c = false) : SameButHostFields s (perform c s).1 := by
  cases c with
  | load bytes => cases hc
  | importState r => cases hc
  | step rand => exact absurd rfl (hstep rand)
  | tick | keyDown k | keyUp k | displayRead | exportState => rfl

/-- A state where STEP changes nothing keeps all but the host-side fields under every command but LOAD and IMPORT. -/
theorem perform_sameButHostFields_of_step_kept {c : Command} {s : State} (hc : replacesState c = false)
    (hkept : ∀ rand, (perform (.step rand) s).1 = s) : SameButHostFields s (perform c s).1 := by
  by_cases hstep : ∃ rand, c = .step rand
  · obtain ⟨rand, rfl⟩ := hstep
    rw [hkept rand]
    exact SameButHostFields.refl s
  · exact perform_sameButHostFields s (not_exists.mp hstep) hc

/-! ### A fault repeats (R309) -/

/-- CXNN never faults, so the random byte plays no part in a fault. -/
theorem execWith_eq_fault_iff {rand : Byte} {i : Instr} {s : State} {f : Fault} :
    execWith rand i s = .fault f ↔ InstrFaults i s f := by
  rw [← exec_eq_fault_iff]
  cases i with
  | rnd x nn => exact iff_of_false (fun h => nomatch h) (fun h => nomatch h)
  | _ => rfl

/-- What a cycle faults: its fetch, an opcode that decodes to nothing, or its instruction (R306). -/
theorem cycleWith_eq_fault_iff {run : Instr → State → StepResult} {s : State} {f : Fault} :
    cycleWith run s = .fault f ↔
      fetch s = .error f ∨ (∃ op, fetch s = .ok op ∧ decode op = none ∧ f = .invalidOpcode op) ∨
        ∃ i, s.Fetches i ∧ run i s = .fault f := by
  unfold State.Fetches
  cases hf : fetch s with
  | error e => simp [cycleWith_of_fetch_fault hf]
  | ok op =>
    cases hd : decode op with
    | none => simp [cycleWith_of_decode_none hf hd, hd, eq_comm]
    | some i => simp [cycleWith_of_fetches ⟨op, hf, hd⟩, hd]

/-- Neither the random byte nor the host-side fields play a part in a STEP's fault. -/
theorem SameButHostFields.stepWith_fault {s t : State} (h : SameButHostFields s t) {rand : Byte} {f : Fault}
    (hs : stepWith rand s = .fault f) (rand' : Byte) : stepWith rand' t = .fault f := by
  have hinstr (i : Instr) : InstrFaults i t f ↔ InstrFaults i s f := by rw [h]; rfl
  unfold stepWith at hs ⊢
  simpa only [cycleWith_eq_fault_iff, execWith_eq_fault_iff, State.Fetches, h.fetch_eq, hinstr] using hs

/-- Settles O56: a faulted STEP changes nothing, and the other commands write host-side fields only, on which no fault
depends. -/
theorem faultRepeats : Obligations.FaultRepeats := by
  intro s rand f hs cs hcs rand'
  have hsame : SameButHostFields s (performAll cs s).1 := by
    refine performAll_keeps (SameButHostFields.refl s) fun c hc t ht => ht.trans ?_
    exact perform_sameButHostFields_of_step_kept (hcs c hc) fun rand'' =>
      congrArg (fun r => (settle t r).1) (ht.stepWith_fault hs rand'')
  exact congrArg (settle _) (hsame.stepWith_fault hs rand')

/-! ### A self-jump ends the run (R411) -/

theorem atSelfJump_iff {s : State} : atSelfJump s = true ↔ ∃ nnn, s.Fetches (.jp nnn) ∧ addrOperand nnn = s.pc := by
  unfold atSelfJump State.Fetches
  cases hf : fetch s with
  | error f => simp
  | ok op =>
    simp only [Except.ok.injEq, exists_eq_left']
    split
    · rename_i nnn hd
      simp [hd]
    · rename_i hne
      simp only [Bool.false_eq_true, false_iff]
      rintro ⟨nnn, hd, -⟩
      exact hne nnn hd

theorem SameButHostFields.atSelfJump {s t : State} (h : SameButHostFields s t) (hs : atSelfJump s = true) :
    atSelfJump t = true := by
  obtain ⟨nnn, hfetches, htarget⟩ := atSelfJump_iff.mp hs
  exact atSelfJump_iff.mpr ⟨nnn, h.sameCode.fetches hfetches, htarget.trans h.sameCode.pc.symm⟩

/-- At a self-jump a cycle that runs jumps as they are keeps the state. -/
theorem cycleWith_of_atSelfJump {run : Instr → State → StepResult} {s : State}
    (hrun : ∀ nnn, run (.jp nnn) s = execJp nnn s) (hs : atSelfJump s = true) : cycleWith run s = .next s := by
  obtain ⟨nnn, hfetches, htarget⟩ := atSelfJump_iff.mp hs
  rw [cycleWith_of_fetches hfetches, hrun, execJp, State.setPc_of_eq htarget]

theorem stepWith_of_atSelfJump {s : State} (hs : atSelfJump s = true) (rand : Byte) : stepWith rand s = .next s :=
  cycleWith_of_atSelfJump (fun _ => rfl) hs

theorem perform_step_of_atSelfJump {s : State} (hs : atSelfJump s = true) (rand : Byte) :
    (perform (.step rand) s).1 = s :=
  congrArg (fun r => (settle s r).1) (stepWith_of_atSelfJump hs rand)

/-- From a self-jump, commands other than LOAD and IMPORT write host-side fields only. -/
theorem performAll_of_atSelfJump {s : State} (hs : atSelfJump s = true) {cs : List Command}
    (hcs : ∀ c ∈ cs, replacesState c = false) : SameButHostFields s (performAll cs s).1 :=
  performAll_keeps (SameButHostFields.refl s) fun c hc _ ht => ht.trans
    (perform_sameButHostFields_of_step_kept (hcs c hc) (perform_step_of_atSelfJump (ht.atSelfJump hs)))

/-! ### The timers run down (R320, R424) -/

/-- What is left on the two timers together. -/
def timersLeft (s : State) : Nat := s.dt.toNat + s.st.toNat

theorem timersLeft_eq_zero {s : State} (h : timersLeft s = 0) : s.dt = 0#8 ∧ s.st = 0#8 := by
  obtain ⟨hdt, hst⟩ := Nat.add_eq_zero_iff.mp h
  exact ⟨BitVec.eq_of_toNat_eq hdt, BitVec.eq_of_toNat_eq hst⟩

theorem timersLeft_tick (s : State) : timersLeft (tick s) ≤ timersLeft s - 1 := by
  have hdt : (tick s).dt.toNat = _ := countDown_toNat s.dt
  have hst : (tick s).st.toNat = _ := countDown_toNat s.st
  unfold timersLeft
  rw [hdt, hst]
  split <;> split <;> omega

/-- At a self-jump no command but LOAD and IMPORT sets a timer. -/
theorem timersLeft_perform_le {c : Command} {s : State} (hs : atSelfJump s = true) (hc : replacesState c = false) :
    timersLeft (perform c s).1 ≤ timersLeft s := by
  cases c with
  | load bytes => cases hc
  | importState r => cases hc
  | step rand => rw [perform_step_of_atSelfJump hs]
  | tick => exact (timersLeft_tick s).trans (Nat.sub_le _ _)
  | keyDown k | keyUp k | displayRead | exportState => exact Nat.le_refl _

/-- A quantity that never rises, and that falls again and again until it is 0, is 0 from some point on. -/
theorem eventually_zero {f : Nat → Nat} (hanti : Antitone f) (hfall : ∀ n, ∃ m, n ≤ m ∧ f (m + 1) ≤ f m - 1) :
    ∃ n, ∀ m, n ≤ m → f m = 0 := by
  refine ⟨Function.argmin f, fun m hm => ?_⟩
  obtain ⟨k, hk, hfallen⟩ := hfall (Function.argmin f)
  have hnext : f (Function.argmin f) ≤ f (k + 1) := Function.argmin_le f (k + 1)
  have hfk : f k ≤ f (Function.argmin f) := hanti hk
  have hfm : f m ≤ f (Function.argmin f) := hanti hm
  omega

/-- Settles O57: a jump to itself keeps the state; the other commands write host-side fields only; and the timers, which no
command there sets, fall with every TICK. -/
theorem selfJumpEndsRun : Obligations.SelfJumpEndsRun := by
  intro s hs
  refine ⟨cycleWith_of_atSelfJump (fun _ => rfl) hs, stepWith_of_atSelfJump hs, fun cs hcs => ?_,
    fun sched hkeep hticks => ?_⟩
  · have hsame := performAll_of_atSelfJump hs hcs
    exact ⟨_, rfl, hsame.atSelfJump hs, hsame⟩
  · have hjump (n : Nat) : atSelfJump (stateBefore sched s n) = true := by
      rw [stateBefore_eq_performAll]
      refine (performAll_of_atSelfJump hs ?_).atSelfJump hs
      simp [hkeep]
    obtain ⟨n, hn⟩ := eventually_zero (f := fun n => timersLeft (stateBefore sched s n))
      (antitone_nat_of_succ_le fun n => timersLeft_perform_le (hjump n) (hkeep n)) fun n => by
        obtain ⟨m, hm, htick⟩ := hticks n
        refine ⟨m, hm, ?_⟩
        simp only [stateBefore, htick]
        exact timersLeft_tick _
    exact ⟨n, fun m hm => timersLeft_eq_zero (hn m hm)⟩

end Sys2Proof.Machine

namespace Sys2Proof.Machine

/-! SUPPORT. What a command answers (60_exceptions.md R300, R305, R344): its state and response, its fault codes, and that a key
press is not latched (R232). -/

/-! ### Committing a result (R11, R308) -/

theorem settle_eq_fault {s : State} {r : StepResult} {f : Fault} (h : (settle s r).2 = .fault f) :
    r = .fault f ∧ (settle s r).1 = s := by
  cases r <;> cases h
  exact ⟨rfl, rfl⟩

theorem settle_ne_refused {s : State} {r : StepResult} (hr : ∀ n, r ≠ .refused n) (n : Refusal) :
    (settle s r).2 ≠ .refused n := by
  cases r with
  | refused n' => exact absurd rfl (hr n')
  | next t | fault f => exact nofun

/-! ### The fault codes of STEP, LOAD and IMPORT (R300; D26) -/

theorem fetch_eq_error {s : State} {f : Fault} (h : fetch s = .error f) :
    f = .addressOutOfRange (max s.pc.toNat 0x1000) := by
  rcases Nat.lt_or_ge 0xFFF (s.pc.toNat + 1) with hout | hin
  · rw [fetch_fault hout] at h
    exact (Except.error.inj h).symm
  · rw [fetch_ok hin] at h
    cases h

theorem faultCode_of_stepWith {rand : Byte} {s : State} {f : Fault} (h : stepWith rand s = .fault f) :
    1 ≤ faultCode f ∧ faultCode f ≤ 4 := by
  rcases cycleWith_eq_fault_iff.mp h with hf | ⟨op, -, -, rfl⟩ | ⟨i, -, hi⟩
  · simp [fetch_eq_error hf, faultCode]
  · simp [faultCode]
  · rcases execWith_eq_fault_iff.mp hi with ⟨-, -, rfl⟩ | ⟨-, -, rfl⟩ | ⟨-, rfl⟩ <;> simp [faultCode]

theorem faultCode_of_loadProgram {bytes : List Byte} {s : State} {f : Fault} (h : loadProgram bytes s = .fault f) :
    faultCode f = 5 := by
  unfold loadProgram at h
  split at h <;> cases h
  rfl

theorem faultCode_of_importState {r : StateRecord} {s : State} {f : Fault} (h : importState r s = .fault f) :
    faultCode f = 6 := by
  unfold importState at h
  split at h <;> cases h
  rfl

/-! ### Nothing is refused (R79, R311) -/

theorem execWith_ne_refused (rand : Byte) (i : Instr) (s : State) (n : Refusal) : execWith rand i s ≠ .refused n := by
  by_cases hrnd : ∃ x nn, i = .rnd x nn
  · obtain ⟨x, nn, rfl⟩ := hrnd
    exact nofun
  · simp only [not_exists] at hrnd
    rw [execWith_of_ne hrnd]
    exact exec_ne_refused i s n

theorem stepWith_ne_refused (rand : Byte) (s : State) (n : Refusal) : stepWith rand s ≠ .refused n := by
  cases hf : fetch s with
  | error f => simp [stepWith, cycleWith_of_fetch_fault hf]
  | ok op =>
    cases hd : decode op with
    | none => simp [stepWith, cycleWith_of_decode_none hf hd]
    | some i =>
      rw [stepWith, cycleWith_of_fetches ⟨op, hf, hd⟩]
      exact execWith_ne_refused rand i s n

theorem loadProgram_ne_refused (bytes : List Byte) (s : State) (n : Refusal) : loadProgram bytes s ≠ .refused n := by
  unfold loadProgram
  split <;> exact nofun

theorem importState_ne_refused (r : StateRecord) (s : State) (n : Refusal) : importState r s ≠ .refused n := by
  unfold importState
  split <;> exact nofun

theorem perform_ne_refused (c : Command) (s : State) (n : Refusal) : (perform c s).2 ≠ .refused n := by
  cases c with
  | load bytes => exact settle_ne_refused (loadProgram_ne_refused bytes s) n
  | step rand => exact settle_ne_refused (stepWith_ne_refused rand s) n
  | importState r => exact settle_ne_refused (importState_ne_refused r s) n
  | tick | keyDown k | keyUp k | displayRead | exportState => exact nofun

/-! ### The parameters are kept (R7; log 3) -/

theorem stepWith_params {rand : Byte} {s t : State} (h : stepWith rand s = .next t) : t.params = s.params := by
  obtain ⟨op, i, -, -, hexec⟩ := cycleWith_next h
  rcases execWith_memory hexec with ⟨-, -, hparams⟩ | ⟨bytes, -, -, rfl⟩
  · exact hparams
  · rfl

theorem loadProgram_params {bytes : List Byte} {s t : State} (h : loadProgram bytes s = .next t) :
    t.params = s.params := by
  unfold loadProgram at h
  split at h <;> cases h
  rfl

theorem importState_params {r : StateRecord} {s t : State} (h : importState r s = .next t) : t.params = s.params := by
  obtain ⟨_, _, _, _, _, _, _, _, _, -, -, -, -, -, -, -, -, -, -, rfl⟩ := importedState_some (importState_next h)
  rfl

theorem perform_params (c : Command) (s : State) : (perform c s).1.params = s.params := by
  cases c with
  | load bytes => exact settle_keeps (P := fun t => t.params = s.params) rfl fun _ => loadProgram_params
  | step rand => exact settle_keeps (P := fun t => t.params = s.params) rfl fun _ => stepWith_params
  | importState r => exact settle_keeps (P := fun t => t.params = s.params) rfl fun _ => importState_params
  | tick | keyDown k | keyUp k | displayRead | exportState => rfl

/-! ### The statements -/

/-- Only STEP, LOAD and IMPORT fault, each with its own codes and with the state kept (R300, R305). -/
theorem perform_eq_fault {c : Command} {s : State} {f : Fault} (h : (perform c s).2 = .fault f) :
    (perform c s).1 = s ∧
      ((∃ rand, c = .step rand) ∧ 1 ≤ faultCode f ∧ faultCode f ≤ 4 ∨
        (∃ bytes, c = .load bytes) ∧ faultCode f = 5 ∨
        (∃ r, c = .importState r) ∧ faultCode f = 6) := by
  cases c with
  | step rand =>
    obtain ⟨hf, hkept⟩ := settle_eq_fault h
    exact ⟨hkept, .inl ⟨⟨rand, rfl⟩, faultCode_of_stepWith hf⟩⟩
  | load bytes =>
    obtain ⟨hf, hkept⟩ := settle_eq_fault h
    exact ⟨hkept, .inr (.inl ⟨⟨bytes, rfl⟩, faultCode_of_loadProgram hf⟩)⟩
  | importState r =>
    obtain ⟨hf, hkept⟩ := settle_eq_fault h
    exact ⟨hkept, .inr (.inr ⟨⟨r, rfl⟩, faultCode_of_importState hf⟩)⟩
  | tick | keyDown k | keyUp k | displayRead | exportState => cases h

/-- Settles O55: the clauses for every command hold command by command; STEP commits what its cycle answers. -/
theorem faultLeavesState : Obligations.FaultLeavesState :=
  ⟨fun c s => ⟨fun _ => perform_eq_fault, perform_ne_refused c s, perform_params c s⟩,
    fun _ s _ h => congrArg (settle s) h, fun _ s _ h => congrArg (settle s) h⟩

/-- Settles O50: the level of key k is set and then cleared, so it is what it was. -/
theorem pressIsNotLatched : Obligations.PressIsNotLatched := by
  intro s k hup
  have hkept : (s.setKey k.val true).setKey k.val false = s := by
    have hcleared : s.keys.set k.val false = s.keys := hup ▸ Vector.set_getElem_self k.isLt
    simp only [State.setKey_fin, Vector.set_set, hcleared]
  exact congrArg (·, [Response.ok, Response.ok]) hkept

end Sys2Proof.Machine

namespace Sys2Proof.Machine

/-! SUPPORT. Data accesses (20_memory.md R50 to R61): an access succeeds within RAM and faults past it, bytes written read back
and no others change, and what an FX55 stored is what a later FX65 or fetch reads. -/

/-- Settles O42: the range check passes exactly where the access is empty or its last address is at most 0xFFF. -/
theorem rangeCheckedAccess : Obligations.RangeCheckedAccess := by
  refine ⟨fun s a n hpos hout => ?_, fun a n hpos hout => ?_, fun s a n hin => ⟨?_, fun bytes hlen => ?_⟩⟩
  · have hrange : ¬ InRange a n := by
      unfold InRange
      omega
    exact ⟨memRead_fault hrange, fun bytes hlen => memWrite_fault (hlen ▸ hrange)⟩
  · refine ⟨?_, ?_, ?_, fun b hab hb hout' => ?_⟩ <;> omega
  · exact ⟨_, memRead_ok hin, s.length_bytesAt a n, fun k hk => s.getElem?_bytesAt hk⟩
  · exact ⟨_, memWrite_ok (hlen ▸ hin)⟩

/-- Settles O43: a write that succeeds puts its bytes into RAM and does no more. -/
theorem writeChangesItsBytes : Obligations.WriteChangesItsBytes := by
  intro s t a bytes h
  obtain ⟨-, rfl⟩ := memWrite_eq_ok h
  exact ⟨rfl, fun k b hb => s.byteAt_putBytes_inside hb, fun b hb => s.byteAt_putBytes_outside hb⟩

/-! ### What FX55 stored (R61, R206, R207) -/

/-- After an FX55 the byte at I + k is V[k]. -/
theorem byteAt_of_execLdMemVx {s t : State} {x : Reg} (h : execLdMemVx x s = .next t) {k : Reg} (hk : k.val ≤ x.val) :
    t.byteAt (s.i.toNat + k.val) = s.getV k := by
  obtain ⟨-, rfl⟩ := execLdMemVx_next h
  exact s.byteAt_putBytes_inside (getElem?_regBlock s hk)

/-- Settles O44: both bytes fetched are bytes of the stored block, which lies in RAM. -/
theorem storeSeenByNextFetch : Obligations.StoreSeenByNextFetch := by
  intro s t x j k h hj hk hkx hpc
  have hrange : s.i.toNat + x.val ≤ 0xFFF := inRange_succ_iff.mp (execLdMemVx_next h).1
  refine fetch_eq_ok.mpr ⟨by omega, ?_⟩
  have hnext : t.pc.toNat + 1 = s.i.toNat + k.val := by omega
  rw [hnext, hpc, byteAt_of_execLdMemVx h hj, byteAt_of_execLdMemVx h hkx]

/-- Settles O33: FX65 reads at the I that FX55 kept the bytes FX55 stored there; the registers put between are no part of
RAM. -/
theorem storeLoadRoundTrip : Obligations.StoreLoadRoundTrip := by
  intro s x hin
  have hrange : InRange s.i.toNat (x.val + 1) := inRange_succ_iff.mpr hin
  have hstore := execLdMemVx_of_inRange hrange
  refine ⟨_, hstore, fun w => ⟨_, execLdVxMem_of_inRange hrange, fun k hk => ?_, fun k hk => ?_, rfl, rfl⟩⟩
  · exact (getElem_fillRegs_bytesAt_inside _ _ _ (Nat.lt_succ_of_le hk)).trans (byteAt_of_execLdMemVx hstore hk)
  · exact getElem_fillRegs_bytesAt_outside _ _ _ (Nat.succ_le_of_lt hk)

end Sys2Proof.Machine

namespace Sys2Proof.Machine

/-! SUPPORT. Frames (10_state.md R22 to R38, 20_memory.md R56): the shapes of change an instruction can make, of which each
frame is read off. -/

/-- What each kind of instruction changes where it completes, the values it writes left open: `Effect s i t` says that `t` is
`s` with a change of the kind of `i`. -/
inductive Effect (s : State) : Instr → State → Prop
  | clear (d : Grid) : Effect s .cls (s.showGrid d).advance
  | ret (k : Fin 16) : Effect s .ret { s with pc := s.stack[k.val], sp := k.castSucc }
  | call (nnn : BitVec 12) (k : Fin 16) (w pc : Word) (hk : s.sp.val = k.val) :
      Effect s (.call nnn) { s with stack := s.stack.set k.val w, sp := k.succ, pc := pc }
  | jump {i : Instr} (w : Word) (hi : (∃ nnn, i = .jp nnn) ∨ ∃ nnn, i = .jpV0 nnn) : Effect s i (s.setPc w)
  | skip {i : Instr} (c : Bool) (hi : isSkip i = true) : Effect s i (s.skipIf c)
  | result {i : Instr} {x : Reg} (b : Byte) (hi : destReg i = some x) : Effect s i (s.setV x b).advance
  | flagged {i : Instr} {x : Reg} (b : Byte) (c : Bool) (hi : destReg i = some x) (hflag : writesFlag i = true) :
      Effect s i (s.setVFlag x b c).advance
  | random (x : Reg) (nn b : Byte) : Effect s (.rnd x nn) ((s.setV x b).countDraw).advance
  | index {i : Instr} (w : Word) (hi : (∃ nnn, i = .ldI nnn) ∨ (∃ x, i = .addIVx x) ∨ ∃ x, i = .ldFVx x) :
      Effect s i (s.setI w).advance
  | draw (x y : Reg) (n : BitVec 4) (d : Grid) (b : Byte) :
      Effect s (.drw x y n) ((s.showGrid d).setV regF b).advance
  | wait (x : Reg) (hup : ∀ k : Fin 16, s.keys[k.val] = false) : Effect s (.ldVxK x) s
  | delay (x : Reg) (b : Byte) : Effect s (.ldDtVx x) (s.setDt b).advance
  | sound (x : Reg) (b : Byte) : Effect s (.ldStVx x) (s.setSt b).advance
  | store {i : Instr} (bytes : List Byte) (hi : (∃ x, i = .ldBVx x) ∨ ∃ x, i = .ldMemVx x) :
      Effect s i (s.putBytes s.i.toNat bytes).advance
  | load (x : Reg) (bytes : List Byte) (hlen : bytes.length = x.val + 1) :
      Effect s (.ldVxMem x) (s.setRegs (fillRegs s.v 0 bytes)).advance

/-- Every instruction that completes makes the change of its kind. -/
theorem effect_of_exec {i : Instr} {s t : State} (h : exec i s = .next t) : Effect s i t := by
  cases i
  case ret => obtain ⟨k, -, rfl⟩ := execRet_next h; exact .ret k
  case call nnn => obtain ⟨k, hk, rfl⟩ := execCall_next h; exact .call nnn k _ _ hk
  case drw x y n => obtain ⟨-, d, b, rfl⟩ := execDrw_next h; exact .draw x y n d b
  case ldBVx x => obtain ⟨-, rfl⟩ := execLdBVx_next h; exact .store _ (.inl ⟨x, rfl⟩)
  case ldMemVx x => obtain ⟨-, rfl⟩ := execLdMemVx_next h; exact .store _ (.inr ⟨x, rfl⟩)
  case ldVxMem x => obtain ⟨-, rfl⟩ := execLdVxMem_next h; exact .load x _ (s.length_bytesAt _ _)
  case ldVxK x =>
    rcases execLdVxK_next h with ⟨hnone, rfl⟩ | ⟨k, -, rfl⟩
    · exact .wait x (lowestKey_none.mp hnone)
    · exact .result _ rfl
  all_goals injection h with h; subst h
  case cls => exact .clear _
  case jp nnn => exact .jump _ (.inl ⟨nnn, rfl⟩)
  case jpV0 nnn => exact .jump _ (.inr ⟨nnn, rfl⟩)
  case seImm x nn | sneImm x nn | seReg x y | sneReg x y | skp x | sknp x => exact .skip _ rfl
  case ldImm x nn | addImm x nn | ldReg x y | orReg x y | andReg x y | xorReg x y | ldVxDt x => exact .result _ rfl
  case addReg x y | sub x y | shr x y | subn x y | shl x y => exact .flagged _ _ rfl rfl
  case rnd x nn => exact .random x nn _
  case ldI nnn => exact .index _ (.inl ⟨nnn, rfl⟩)
  case addIVx x => exact .index _ (.inr (.inl ⟨x, rfl⟩))
  case ldFVx x => exact .index _ (.inr (.inr ⟨x, rfl⟩))
  case ldDtVx x => exact .delay x _
  case ldStVx x => exact .sound x _

/-! ### Registers (R22, R23) -/

section
variable {i : Instr} {r : Reg} (h : mayWriteReg i r = false)
include h

theorem ne_destReg_of_not_mayWriteReg {x : Reg} (hi : destReg i = some x) : r ≠ x := by
  rintro rfl
  simp [mayWriteReg, hi] at h

theorem ne_regF_of_not_mayWriteReg (hi : writesFlag i = true) : r ≠ regF := by
  rintro rfl
  simp [mayWriteReg, hi] at h

theorem lt_of_not_mayWriteReg {x : Reg} (hi : loadsBlock i = some x) : x < r := by
  rw [← not_le]
  intro hle
  simp [mayWriteReg, hi, hle] at h

end

/-- Settles O35: a kind that writes a register writes one that `mayWriteReg` names. -/
theorem registerFrame : Obligations.RegisterFrame := by
  intro i s t r h hr
  cases effect_of_exec h with
  | result b hi => exact s.getV_setV_other b (ne_destReg_of_not_mayWriteReg hr hi)
  | random x nn b => exact s.getV_setV_other b (ne_destReg_of_not_mayWriteReg hr rfl)
  | flagged b c hi hflag =>
    exact s.getV_setVFlag_other b c (ne_destReg_of_not_mayWriteReg hr hi) (ne_regF_of_not_mayWriteReg hr hflag)
  | draw x y n d b => exact (s.showGrid d).getV_setV_other b (ne_regF_of_not_mayWriteReg hr rfl)
  | load x bytes hlen =>
    have hlt : x.val < r.val := lt_of_not_mayWriteReg hr rfl
    exact (getElem_fillRegs bytes s.v 0 r.val r.isLt).trans (dif_neg (by omega))
  | _ => rfl

/-! ### Memory (R56, R57) -/

/-- Settles O36: an instruction stores nothing, or `storeCount` bytes from address I. -/
theorem memoryFrame : Obligations.MemoryFrame := by
  intro i s t h
  rcases exec_memory h with ⟨-, hram, hparams⟩ | ⟨bytes, hlen, -, rfl⟩
  · exact ⟨fun _ _ b _ => State.byteAt_congr hram hparams b, fun _ b => State.byteAt_congr hram hparams b⟩
  · refine ⟨?_, fun h0 b => s.byteAt_putBytes_outside (by omega)⟩
    rintro _ rfl b hb
    exact s.byteAt_putBytes_outside (hlen ▸ hb)

/-! ### I, the stack and the timers (R24, R27 to R30) -/

theorem exec_i {i : Instr} {s t : State} (h : exec i s = .next t) (hldI : ∀ nnn, i ≠ .ldI nnn)
    (haddI : ∀ x, i ≠ .addIVx x) (hldF : ∀ x, i ≠ .ldFVx x) : t.i = s.i := by
  cases effect_of_exec h with
  | index w hi =>
    rcases hi with ⟨nnn, hi⟩ | ⟨x, hi⟩ | ⟨x, hi⟩
    · exact absurd hi (hldI nnn)
    · exact absurd hi (haddI x)
    · exact absurd hi (hldF x)
  | _ => rfl

theorem exec_stack {i : Instr} {s t : State} (h : exec i s = .next t) (k : Fin 16)
    (hcall : ∀ nnn, i = .call nnn → s.sp.val ≠ k.val) : t.stack[k.val] = s.stack[k.val] := by
  cases effect_of_exec h with
  | call nnn j w pc hj => exact Vector.getElem_set_ne j.isLt k.isLt (hj ▸ hcall nnn rfl)
  | _ => rfl

theorem exec_sp {i : Instr} {s t : State} (h : exec i s = .next t) (hcall : ∀ nnn, i ≠ .call nnn) (hret : i ≠ .ret) :
    t.sp = s.sp := by
  cases effect_of_exec h with
  | call nnn j w pc hj => exact absurd rfl (hcall nnn)
  | ret k => exact absurd rfl hret
  | _ => rfl

theorem exec_dt {i : Instr} {s t : State} (h : exec i s = .next t) (hdt : ∀ x, i ≠ .ldDtVx x) : t.dt = s.dt := by
  cases effect_of_exec h with
  | delay x b => exact absurd rfl (hdt x)
  | _ => rfl

theorem exec_st {i : Instr} {s t : State} (h : exec i s = .next t) (hst : ∀ x, i ≠ .ldStVx x) : t.st = s.st := by
  cases effect_of_exec h with
  | sound x b => exact absurd rfl (hst x)
  | _ => rfl

/-- Settles O37: the five frames together. -/
theorem controlStateFrame : Obligations.ControlStateFrame := fun _ _ _ h =>
  ⟨exec_i h, exec_stack h, exec_sp h, exec_dt h, exec_st h⟩

/-! ### Display, keys and the model's own fields (R35, R36, R38) -/

theorem exec_disp {i : Instr} {s t : State} (h : exec i s = .next t) (hcls : i ≠ .cls)
    (hdrw : ∀ x y n, i ≠ .drw x y n) : t.disp = s.disp ∧ t.dispChanged = s.dispChanged := by
  cases effect_of_exec h with
  | clear d => exact absurd rfl hcls
  | draw x y n d b => exact absurd rfl (hdrw x y n)
  | _ => exact ⟨rfl, rfl⟩

/-- What draws tells the host (D20). -/
theorem exec_dispChanged {i : Instr} {s t : State} (h : exec i s = .next t)
    (hi : i = .cls ∨ ∃ x y n, i = .drw x y n) : t.dispChanged = true := by
  rcases hi with rfl | ⟨x, y, n, rfl⟩
  · cases h
    rfl
  · obtain ⟨-, d, b, rfl⟩ := execDrw_next h
    rfl

theorem exec_keys {i : Instr} {s t : State} (h : exec i s = .next t) : t.keys = s.keys := by
  cases effect_of_exec h <;> rfl

theorem exec_draws {i : Instr} {s t : State} (h : exec i s = .next t) (hrnd : ∀ x nn, i ≠ .rnd x nn) :
    t.draws = s.draws := by
  cases effect_of_exec h with
  | random x nn b => exact absurd rfl (hrnd x nn)
  | _ => rfl

theorem exec_params {i : Instr} {s t : State} (h : exec i s = .next t) : t.params = s.params := by
  cases effect_of_exec h <;> rfl

/-- Settles O38: the frames of the display, the keys and the model's own fields together. -/
theorem displayAndInputFrame : Obligations.DisplayAndInputFrame := fun _ _ _ h =>
  ⟨exec_disp h, exec_dispChanged h, exec_keys h, exec_draws h, exec_params h⟩

/-! ### PC (R25) -/

theorem advance_pc_toNat (s : State) : s.advance.pc.toNat = (s.pc.toNat + 2) % 65536 := BitVec.toNat_add _ _

/-- Settles O39: the kinds that are no transfer advance PC by 2, skip, or wait with no key down. -/
theorem programCounterAdvances : Obligations.ProgramCounterAdvances := by
  intro i s t h htransfer
  cases effect_of_exec h with
  | ret k => cases htransfer
  | call nnn k w pc hk => cases htransfer
  | jump w hi => rcases hi with ⟨nnn, rfl⟩ | ⟨nnn, rfl⟩ <;> cases htransfer
  | skip c hi =>
    cases c with
    | false => exact .inl (advance_pc_toNat s)
    | true => exact .inr (.inl ⟨hi, BitVec.toNat_add _ _⟩)
  | wait x hup => exact .inr (.inr ⟨⟨x, rfl⟩, hup, rfl⟩)
  | _ => exact .inl (advance_pc_toNat s)

end Sys2Proof.Machine

namespace Sys2Proof.Machine

/-! SUPPORT. What instructions cannot see (10_state.md R30, R36, R38): other key levels, another ST or another dispChanged pass
through an instruction, or are overwritten by it, and change nothing else. -/

/-- `s` with the key levels, ST and dispChanged replaced, each where a value is given. -/
def State.overlay (k : Option (Vector Bool 16)) (b : Option Byte) (c : Option Bool) (s : State) : State :=
  { s with keys := k.getD s.keys, st := b.getD s.st, dispChanged := c.getD s.dispChanged }

section
variable (k : Option (Vector Bool 16)) (b : Option Byte) (c : Option Bool) (s : State)

/-! ### The checked operations see no overlay -/

theorem memRead_overlay (a n : Nat) : memRead (s.overlay k b c) a n = memRead s a n :=
  memRead_congr (s := s) (t := s.overlay k b c) rfl rfl a n

theorem memWrite_overlay (a : Nat) (bytes : List Byte) :
    memWrite (s.overlay k b c) a bytes = (memWrite s a bytes).map (State.overlay k b c) := by
  unfold memWrite
  cases checkRange a bytes.length <;> rfl

theorem pushStack_overlay (w : Word) : pushStack (s.overlay k b c) w = (pushStack s w).map (State.overlay k b c) := by
  rcases s.sp_room with h | ⟨j, h⟩
  · rw [pushStack_full w h, pushStack_full (s := s.overlay k b c) w h]; rfl
  · rw [pushStack_ok w h, pushStack_ok (s := s.overlay k b c) w h]; rfl

theorem popStack_overlay :
    popStack (s.overlay k b c) = (popStack s).map fun p => (p.1, p.2.overlay k b c) := by
  rcases s.sp_live with h | ⟨j, h⟩
  · rw [popStack_empty h, popStack_empty (s := s.overlay k b c) h]; rfl
  · rw [popStack_ok h, popStack_ok (s := s.overlay k b c) h]; rfl

/-- What follows a check decides what an attempt answers: `f` of the next state, if that is what it answers each time. -/
theorem attempt_mapNext {α : Type} {r : Except Fault α} {f : State → State} {next next' : α → StepResult}
    (hnext : ∀ a, next' a = mapNext f (next a)) : attempt r next' = mapNext f (attempt r next) := by
  cases r with
  | error e => rfl
  | ok a => exact hnext a

theorem attempt_map {α β : Type} (r : Except Fault α) (g : α → β) (next : β → StepResult) :
    attempt (r.map g) next = attempt r fun a => next (g a) := by
  cases r <;> rfl

theorem State.isPressed_congr {s t : State} (h : t.keys = s.keys) (v : Nat) : t.isPressed v = s.isPressed v := by
  simp only [State.isPressed, h]

theorem lowestKey_congr {s t : State} (h : t.keys = s.keys) : lowestKey t = lowestKey s := by
  have hfrom (n : Nat) : ∀ j, lowestKeyFrom t j n = lowestKeyFrom s j n := by
    induction n with
    | zero => exact fun _ => rfl
    | succ m ih => exact fun j => by simp only [lowestKeyFrom, State.isPressed_congr h, ih]
  exact hfrom 16 0

/-- An instruction lets an overlay through, but for what it overwrites: FX18 the ST, 00E0 and DXYN the dispChanged. Only EX9E,
EXA1 and FX0A see the keys. -/
theorem exec_overlay (i : Instr) (hkeys : readsKeys i = false ∨ k = none) :
    ∃ b' c', (b = none → b' = none) ∧ (c = none → c' = none) ∧
      exec i (s.overlay k b c) = mapNext (State.overlay k b' c') (exec i s) := by
  cases i
  case cls => exact ⟨b, none, id, fun _ => rfl, rfl⟩
  case ldStVx x => exact ⟨none, c, fun _ => rfl, id, rfl⟩
  case drw x y n =>
    refine ⟨b, none, id, fun _ => rfl, ?_⟩
    change attempt (memRead (s.overlay k b c) (indexAddress s) n.toNat) _ = _
    rw [memRead_overlay]
    exact attempt_mapNext fun _ => rfl
  all_goals refine ⟨b, c, id, id, ?_⟩
  case ret =>
    change attempt (popStack (s.overlay k b c)) _ = _
    rw [popStack_overlay, attempt_map]
    exact attempt_mapNext fun _ => rfl
  case call nnn =>
    change attempt (pushStack (s.overlay k b c) (s.pc + 2#16)) _ = _
    rw [pushStack_overlay, attempt_map]
    exact attempt_mapNext fun _ => rfl
  case ldBVx x =>
    change attempt (memWrite (s.overlay k b c) (indexAddress s) (bcdDigits (s.getV x))) _ = _
    rw [memWrite_overlay, attempt_map]
    exact attempt_mapNext fun _ => rfl
  case ldMemVx x =>
    change attempt (memWrite (s.overlay k b c) (indexAddress s) (regBlock s x)) _ = _
    rw [memWrite_overlay, attempt_map]
    exact attempt_mapNext fun _ => rfl
  case ldVxMem x =>
    change attempt (memRead (s.overlay k b c) (indexAddress s) (x.val + 1)) _ = _
    rw [memRead_overlay]
    exact attempt_mapNext fun _ => rfl
  case ldVxK x =>
    obtain rfl : k = none := hkeys.resolve_left nofun
    have hkey : lowestKey (s.overlay none b c) = lowestKey s := lowestKey_congr rfl
    simp only [exec, execLdVxK, hkey]
    cases lowestKey s <;> rfl
  case skp x | sknp x =>
    obtain rfl : k = none := hkeys.resolve_left nofun
    rfl
  all_goals rfl

end

/-- Settles O40: with the keys alone overlaid, the same overlay comes out. -/
theorem keysReadByThree : Obligations.KeysReadByThree := by
  intro i s k hreads
  obtain ⟨b', c', hb, hc, hexec⟩ := exec_overlay (some k) none none s i (.inl hreads)
  rw [hb rfl, hc rfl] at hexec
  exact hexec

theorem mapNext_mapNext (f g : State → State) (r : StepResult) :
    mapNext f (mapNext g r) = mapNext (fun t => f (g t)) r := by
  cases r <;> rfl

/-- Settles O41: whatever overlay of ST and dispChanged comes out, fixing both hides it. -/
theorem outputsUnread : Obligations.OutputsUnread := by
  intro i s b c
  obtain ⟨b', c', -, -, hexec⟩ := exec_overlay none (some b) (some c) s i (.inr rfl)
  exact (congrArg (mapNext _) hexec).trans (mapNext_mapNext _ _ _)

end Sys2Proof.Machine

namespace Sys2Proof.Machine

/-! SUPPORT. EXPORT and IMPORT (70_reset_and_hazards.md R406, R407): a value IMPORT's check accepts is exported as the number it
came from, and a canonical state is determined by its record, its keys and the model's own fields. -/

/-! ### Checked values exported again (R406, R408) -/

/-- A field that passed its check to give `b` holds `a`, if the check gives `b` on `a` alone. -/
theorem some_eq_of_bind {α β : Type} {field : Option α} {check : α → Option β} {a : α} {b : β}
    (hcheck : ∀ {a'}, check a' = some b → a = a') (h : field.bind check = some b) : some a = field := by
  obtain ⟨a', rfl, ha'⟩ := Option.bind_eq_some_iff.mp h
  exact congrArg some (hcheck ha')

theorem toNat_of_checkedWord {w x : Nat} {b : BitVec w} (h : checkedWord w x = some b) : b.toNat = x := by
  unfold checkedWord at h
  split at h
  next hx => cases h; exact Nat.mod_eq_of_lt hx
  next => cases h

theorem val_of_checkedDepth {x : Nat} {d : Fin 17} (h : checkedDepth x = some d) : d.val = x := by
  unfold checkedDepth at h
  split at h <;> cases h
  rfl

theorem map_toNat_map_ofNat {w : Nat} {xs : List Nat} (h : ∀ x ∈ xs, x < 2 ^ w) :
    (xs.map (BitVec.ofNat w)).map BitVec.toNat = xs := by
  rw [List.map_map]
  exact (List.map_congr_left fun x hx => Nat.mod_eq_of_lt (h x hx)).trans (List.map_id xs)

theorem map_toNat_of_checkedVector {w n : Nat} {xs : List Nat} {v : Vector (BitVec w) n}
    (h : checkedVector w n xs = some v) : v.toList.map BitVec.toNat = xs := by
  unfold checkedVector at h
  split at h
  next hxs => cases h; exact map_toNat_map_ofNat hxs.2
  next => cases h

theorem map_toList_of_checkedGrid {cols : List (List Bool)} {g : Grid} (h : checkedGrid cols = some g) :
    g.toList.map Vector.toList = cols := by
  unfold checkedGrid at h
  split at h
  next => cases h; simp [List.map_map, Function.comp_def]
  next => cases h

/-- Memory made of 4096 bytes holds them. -/
theorem map_toNat_of_checkedRam {xs : List Nat} {t : State} (h : checkedRam t.params.font xs = some t.ram) :
    (t.bytesAt 0 ramSize).map BitVec.toNat = xs := by
  unfold checkedRam at h
  split at h
  next hxs =>
    have hram := Option.some.inj h
    suffices hbytes : t.bytesAt 0 ramSize = xs.map (BitVec.ofNat 8) by
      rw [hbytes, map_toNat_map_ofNat hxs.2]
    refine List.ext_getElem (by simp [hxs.1]) fun a ha ha' => ?_
    rw [List.getElem_eq_iff, t.getElem?_bytesAt (by simpa using ha), State.byteAt, ← hram]
    exact congrArg some (Memory.read_ofBytes_inside (List.getElem?_eq_getElem ha'))
  next => cases h

/-- A state an accepted record gives exports the record. -/
theorem exportRecord_of_importedState {r : StateRecord} {s t : State} (h : importedState r s = some t) :
    exportRecord t = r := by
  obtain ⟨ram, v, i, pc, stack, sp, dt, st, disp, hram, hv, hi, hpc, hstack, hsp, hdt, hst, hdisp, hextra, rfl⟩ :=
    importedState_some h
  cases r
  simp only [exportRecord, StateRecord.mk.injEq]
  exact ⟨some_eq_of_bind map_toNat_of_checkedRam hram, some_eq_of_bind map_toNat_of_checkedVector hv,
    some_eq_of_bind toNat_of_checkedWord hi, some_eq_of_bind toNat_of_checkedWord hpc,
    some_eq_of_bind map_toNat_of_checkedVector hstack, some_eq_of_bind val_of_checkedDepth hsp,
    some_eq_of_bind toNat_of_checkedWord hdt, some_eq_of_bind toNat_of_checkedWord hst,
    some_eq_of_bind map_toList_of_checkedGrid hdisp, hextra.symm⟩

/-! ### A canonical state is determined by its record (R407) -/

theorem map_toNat_injective {w : Nat} : Function.Injective (List.map (BitVec.toNat (w := w))) :=
  List.map_injective_iff.mpr fun _ _ => BitVec.eq_of_toNat_eq

/-- Canonical memories with the same 4096 bytes are equal: past them both read as at reset. -/
theorem ram_eq_of_bytesAt_eq {s t : State} (hs : s.Inv) (ht : t.Inv) (hparams : t.params = s.params)
    (h : t.bytesAt 0 ramSize = s.bytesAt 0 ramSize) : t.ram = s.ram := by
  unfold State.Inv at ht
  rw [hparams] at ht
  refine Memory.ext ht hs fun a => ?_
  rcases Nat.lt_or_ge a ramSize with ha | ha
  · have hbyte := congrArg (·[a]?) h
    simpa [State.getElem?_bytesAt _ ha, State.byteAt, hparams] using hbyte
  · rw [Memory.read_above ht ha, Memory.read_above hs ha]

/-- IMPORT of a canonical state's own record gives the state back with dispChanged set. -/
theorem importedState_exportRecord {s : State} (hs : s.Inv) :
    importedState (exportRecord s) s = some { s with dispChanged := true } := by
  obtain ⟨t, ht⟩ := exists_importedState_iff.mpr (recordWellFormed_exportRecord s)
  have hinv : t.Inv := importState_keeps_inv (importState_of_some ht)
  have hrecord : exportRecord t = exportRecord s := exportRecord_of_importedState ht
  obtain ⟨ram, v, i, pc, stack, sp, dt, st, disp, -, -, -, -, -, -, -, -, -, -, rfl⟩ := importedState_some ht
  simp only [exportRecord, StateRecord.mk.injEq, Option.some.injEq, map_toNat_injective.eq_iff, BitVec.toNat_inj,
    Vector.toList_inj, Fin.val_inj, and_true] at hrecord
  obtain ⟨hbytes, rfl, rfl, rfl, rfl, rfl, rfl, rfl, hdisp⟩ := hrecord
  have hram : ram = s.ram := ram_eq_of_bytesAt_eq hs hinv rfl hbytes
  have hgrid : disp = s.disp := Vector.toList_inj.mp
    (List.map_injective_iff.mpr (fun _ _ => Vector.toList_inj.mp) hdisp)
  rw [ht, hram, hgrid]

/-- Settles O54: an accepted record is what its state exports; and IMPORT accepts the record of a canonical state, which
determines it. -/
theorem exportImportRoundTrip : Obligations.ExportImportRoundTrip := by
  refine ⟨fun r s t h => ?_, fun s hs => ?_⟩
  · have himport := importState_next h
    refine ⟨exportRecord_of_importedState himport, ?_⟩
    obtain ⟨_, _, _, _, _, _, _, _, _, -, -, -, -, -, -, -, -, -, -, rfl⟩ := importedState_some himport
    exact ⟨rfl, rfl, rfl, rfl⟩
  · have himport := importState_of_some (importedState_exportRecord hs)
    simp only [performAll, perform, himport, settle]

end Sys2Proof.Machine
